-- ==== Sys2Proof/Word.lean ====
section
/-! DEFINITION. The words of the machine. All values are unsigned (spec/00_scope.md R6). -/

namespace Sys2Proof

/-- A byte: a V register, a timer, a cell of memory (10_state.md R20). -/
abbrev Byte := BitVec 8

/-- A 16-bit value: I, PC, a stack slot (10_state.md R23 to R25). -/
abbrev Addr := BitVec 16

/-- "The raw 16-bit instruction word fetched from memory" (30_encoding.md R90). -/
abbrev Opcode := BitVec 16

/-- A general register number: one hexadecimal digit, so it always names an existing register (10_state.md R21). -/
abbrev Reg := Fin 16

/-- VF, register 15, the implicit flag output (10_state.md R22). -/
abbrev Reg.vf : Reg := 15

end Sys2Proof
end

