-- ==== Sys2Proof/Config.lean ====
section
/-! DEFINITION. The parameters of spec/00_scope.md R5 that the model names, and the free values of its two inputs. -/

namespace Sys2Proof

/-- `MEM_SIZE`: bytes of memory, addresses 0x000 to 0xFFF (R5, 10_state.md R29). -/
@[simp] abbrev Config.memSize : Nat := 4096

/-- `PROG_BASE`: where an image is loaded and where PC starts (R5, 10_state.md R40; the reset PC is the spec's decision D4). -/
@[simp] abbrev Config.progBase : Nat := 0x200

/-- `MAX_DEPTH`: the deepest nesting of CALL that does not fault (R5, 90_conflicts.md C2). -/
@[simp] abbrev Config.maxDepth : Nat := 15

/-- FREE VALUE: the n-th sample of the keypad input, 16 unconstrained bits (10_state.md R30, 93_implementation_defined.md U13).
It has no body, so a claim that meets it holds for every keypad trace. DESIGN CHOICE, log entry 2. -/
opaque Config.keySample : Nat → BitVec 16

/-- FREE VALUE: the n-th draw from the random input, 8 unconstrained bits: no value, seed, sequence or distribution may be
assumed (10_state.md R31, 45_random.md R191, 93_implementation_defined.md U12). DESIGN CHOICE, log entry 3. -/
opaque Config.rndSample : Nat → BitVec 8

end Sys2Proof
end

