-- ==== Sys2Proof/Syntax.lean ====
section
/-! DEFINITION. The 34 instructions, one constructor per row of spec/opcode_table.json (30_encoding.md R95), in its order.
The operand types have exactly the widths of the fields (R91), and every value of every field is legal (R93). -/

namespace Sys2Proof

inductive Instr where
  /-- 00E0 CLS (46_display.md R195) -/
  | cls
  /-- 00EE RET (41_control_transfer.md R140) -/
  | ret
  /-- 1nnn JP nnn (R141) -/
  | jp (nnn : BitVec 12)
  /-- 2nnn CALL nnn (R142) -/
  | call (nnn : BitVec 12)
  /-- 3xkk SE Vx, kk (42_skips.md R150) -/
  | seImm (x : Reg) (kk : Byte)
  /-- 4xkk SNE Vx, kk (R151) -/
  | sneImm (x : Reg) (kk : Byte)
  /-- 5xy0 SE Vx, Vy (R152) -/
  | seReg (x y : Reg)
  /-- 9xy0 SNE Vx, Vy (R153) -/
  | sneReg (x y : Reg)
  /-- 6xkk LD Vx, kk (43_alu.md R160) -/
  | ldImm (x : Reg) (kk : Byte)
  /-- 7xkk ADD Vx, kk (R161) -/
  | addImm (x : Reg) (kk : Byte)
  /-- 8xy0 LD Vx, Vy (R162) -/
  | ldReg (x y : Reg)
  /-- 8xy1 OR Vx, Vy (R163) -/
  | orReg (x y : Reg)
  /-- 8xy2 AND Vx, Vy (R164) -/
  | andReg (x y : Reg)
  /-- 8xy3 XOR Vx, Vy (R165) -/
  | xorReg (x y : Reg)
  /-- 8xy4 ADD Vx, Vy (R166) -/
  | addReg (x y : Reg)
  /-- 8xy5 SUB Vx, Vy (R167) -/
  | sub (x y : Reg)
  /-- 8xy6 SHR Vx; the y field is kept so that no bit of the word is lost, and takes part in no computation (R168,
  30_encoding.md R98, log entry 8) -/
  | shr (x y : Reg)
  /-- 8xy7 SUBN Vx, Vy (R169) -/
  | subn (x y : Reg)
  /-- 8xyE SHL Vx; the y field as in `shr` (R170, R98) -/
  | shl (x y : Reg)
  /-- Annn LD I, nnn (44_index_memory.md R180) -/
  | ldI (nnn : BitVec 12)
  /-- Bnnn JP V0, nnn (41_control_transfer.md R143) -/
  | jpV0 (nnn : BitVec 12)
  /-- Cxkk RND Vx, kk (45_random.md R190) -/
  | rnd (x : Reg) (kk : Byte)
  /-- Dxyn DRW Vx, Vy, n; n is a count of rows, 0 to 15 (46_display.md R196) -/
  | drw (x y n : Fin 16)
  /-- Ex9E SKP Vx (47_keypad.md R200) -/
  | skp (x : Reg)
  /-- ExA1 SKNP Vx (R201) -/
  | sknp (x : Reg)
  /-- Fx07 LD Vx, DT (48_timers.md R210) -/
  | ldVxDt (x : Reg)
  /-- Fx0A LD Vx, K (47_keypad.md R202) -/
  | ldVxK (x : Reg)
  /-- Fx15 LD DT, Vx (48_timers.md R211) -/
  | ldDtVx (x : Reg)
  /-- Fx18 LD ST, Vx (R212) -/
  | ldStVx (x : Reg)
  /-- Fx1E ADD I, Vx (44_index_memory.md R181) -/
  | addI (x : Reg)
  /-- Fx29 LD F, Vx (R182) -/
  | ldF (x : Reg)
  /-- Fx33 LD B, Vx (R183) -/
  | ldB (x : Reg)
  /-- Fx55 LD [I], Vx; x is a count here (R184) -/
  | storeRegs (x : Reg)
  /-- Fx65 LD Vx, [I]; x is a count here (R185) -/
  | loadRegs (x : Reg)
  deriving DecidableEq, Repr

end Sys2Proof
end

