-- ==== Sys2Proof/WellFormed.lean ====
section
/-! DEFINITION. The checks on raw data that come from outside: an opcode word against the opcode map (30_encoding.md R95),
and a program image against the loader's bound (70_reset_and_hazards.md R252). A term of `Instr` needs no check: an operand
has the width of its field, and the spec makes every value of every field legal (30_encoding.md R93, 10_state.md R21). -/

namespace Sys2Proof

/-- One row of the opcode map: an opcode is this instruction exactly when `opcode & mask == pattern` (R95). -/
structure OpcodeRow where
  mnemonic : String
  mask     : BitVec 16
  pattern  : BitVec 16
  deriving DecidableEq, Repr

/-- The row of the opcode map an instruction stands in: its mnemonic as spec/opcode_table.json spells it, its mask and its
match value (R95). -/
def Instr.row : Instr → OpcodeRow
  | .cls => ⟨"CLS", 0xFFFF, 0x00E0⟩
  | .ret => ⟨"RET", 0xFFFF, 0x00EE⟩
  | .jp _ => ⟨"JP_nnn", 0xF000, 0x1000⟩
  | .call _ => ⟨"CALL_nnn", 0xF000, 0x2000⟩
  | .seImm _ _ => ⟨"SE_Vx__kk", 0xF000, 0x3000⟩
  | .sneImm _ _ => ⟨"SNE_Vx__kk", 0xF000, 0x4000⟩
  | .seReg _ _ => ⟨"SE_Vx__Vy", 0xF00F, 0x5000⟩
  | .sneReg _ _ => ⟨"SNE_Vx__Vy", 0xF00F, 0x9000⟩
  | .ldImm _ _ => ⟨"LD_Vx__kk", 0xF000, 0x6000⟩
  | .addImm _ _ => ⟨"ADD_Vx__kk", 0xF000, 0x7000⟩
  | .ldReg _ _ => ⟨"LD_Vx__Vy", 0xF00F, 0x8000⟩
  | .orReg _ _ => ⟨"OR_Vx__Vy", 0xF00F, 0x8001⟩
  | .andReg _ _ => ⟨"AND_Vx__Vy", 0xF00F, 0x8002⟩
  | .xorReg _ _ => ⟨"XOR_Vx__Vy", 0xF00F, 0x8003⟩
  | .addReg _ _ => ⟨"ADD_Vx__Vy", 0xF00F, 0x8004⟩
  | .sub _ _ => ⟨"SUB_Vx__Vy", 0xF00F, 0x8005⟩
  | .shr _ _ => ⟨"SHR_Vx", 0xF00F, 0x8006⟩
  | .subn _ _ => ⟨"SUBN_Vx__Vy", 0xF00F, 0x8007⟩
  | .shl _ _ => ⟨"SHL_Vx", 0xF00F, 0x800E⟩
  | .ldI _ => ⟨"LD_I__nnn", 0xF000, 0xA000⟩
  | .jpV0 _ => ⟨"JP_V0__nnn", 0xF000, 0xB000⟩
  | .rnd _ _ => ⟨"RND_Vx__kk", 0xF000, 0xC000⟩
  | .drw _ _ _ => ⟨"DRW_Vx__Vy__n", 0xF000, 0xD000⟩
  | .skp _ => ⟨"SKP_Vx", 0xF0FF, 0xE09E⟩
  | .sknp _ => ⟨"SKNP_Vx", 0xF0FF, 0xE0A1⟩
  | .ldVxDt _ => ⟨"LD_Vx__DT", 0xF0FF, 0xF007⟩
  | .ldVxK _ => ⟨"LD_Vx__K", 0xF0FF, 0xF00A⟩
  | .ldDtVx _ => ⟨"LD_DT__Vx", 0xF0FF, 0xF015⟩
  | .ldStVx _ => ⟨"LD_ST__Vx", 0xF0FF, 0xF018⟩
  | .addI _ => ⟨"ADD_I__Vx", 0xF0FF, 0xF01E⟩
  | .ldF _ => ⟨"LD_F__Vx", 0xF0FF, 0xF029⟩
  | .ldB _ => ⟨"LD_B__Vx", 0xF0FF, 0xF033⟩
  | .storeRegs _ => ⟨"LD__I___Vx", 0xF0FF, 0xF055⟩
  | .loadRegs _ => ⟨"LD_Vx___I", 0xF0FF, 0xF065⟩

/-- One instruction of each row, in the order of R95. -/
def oneOfEach : List Instr :=
  [.cls, .ret, .jp 0, .call 0, .seImm 0 0, .sneImm 0 0, .seReg 0 0, .sneReg 0 0, .ldImm 0 0, .addImm 0 0] ++
  [.ldReg 0 0, .orReg 0 0, .andReg 0 0, .xorReg 0 0, .addReg 0 0, .sub 0 0, .shr 0 0, .subn 0 0, .shl 0 0] ++
  [.ldI 0, .jpV0 0, .rnd 0 0, .drw 0 0 0, .skp 0, .sknp 0, .ldVxDt 0, .ldVxK 0, .ldDtVx 0, .ldStVx 0] ++
  [.addI 0, .ldF 0, .ldB 0, .storeRegs 0, .loadRegs 0]

/-- The opcode map of R95: its 34 rows in the spec's order. -/
def opcodeMap : List OpcodeRow := oneOfEach.map Instr.row

/-- The word belongs to the row. -/
def OpcodeRow.admits (r : OpcodeRow) (w : Opcode) : Bool := w &&& r.mask == r.pattern

/-- The word is an instruction: some row of the opcode map admits it; every other word is Unknown (R95, R96). -/
def Opcode.wellFormed (w : Opcode) : Bool := opcodeMap.any (·.admits w)

/-- The image fits between `PROG_BASE` and the end of memory: at most 3584 bytes (70_reset_and_hazards.md R252). -/
def Image.wellFormed (image : List Byte) : Bool := decide (image.length ≤ Config.memSize - Config.progBase)

end Sys2Proof
end

