-- ==== Sys2Proof/Decode.lean ====
section
/-! DEFINITION. The decoder of 30_encoding.md R94, total on any word and on any bytes, and the encoder that inverts it. -/

namespace Sys2Proof

/-- What a decoder answers: an instruction, or the name of the reason why there is none. -/
inductive Decoded where
  /-- One of the 34 instructions with its fields. -/
  | instr (i : Instr)
  /-- "Unrecognized opcodes ... classify as `Unknown`" (30_encoding.md R96). -/
  | unknown
  /-- Fewer than the two bytes of an opcode (R90); never for a 16-bit word. -/
  | truncated
  deriving DecidableEq, Repr

/-- The register number in a 4-bit field (R91). -/
def regOfBits (b : BitVec 4) : Reg := ⟨b.toNat, b.isLt⟩

/-- A register number as a 4-bit field (R91). -/
def bitsOfReg (x : Reg) : BitVec 4 := BitVec.ofNat 4 x.val

/-- `op`, bits 15:12 (R91). -/
def Opcode.op (w : Opcode) : BitVec 4 := w.extractLsb' 12 4

/-- `x`, bits 11:8 (R91). -/
def Opcode.x (w : Opcode) : Reg := regOfBits (w.extractLsb' 8 4)

/-- `y`, bits 7:4 (R91). -/
def Opcode.y (w : Opcode) : Reg := regOfBits (w.extractLsb' 4 4)

/-- `n`, bits 3:0 (R91). -/
def Opcode.n (w : Opcode) : BitVec 4 := w.extractLsb' 0 4

/-- `kk`, bits 7:0 (R91). -/
def Opcode.kk (w : Opcode) : Byte := w.extractLsb' 0 8

/-- `nnn`, bits 11:0 (R91). -/
def Opcode.nnn (w : Opcode) : BitVec 12 := w.extractLsb' 0 12

/-- Family 0: two words and nothing else (R94, R96). -/
def decodeFamily0 (w : Opcode) : Decoded :=
  if w = 0x00E0 then .instr .cls
  else if w = 0x00EE then .instr .ret
  else .unknown

/-- Family 8 goes by the low nibble (R94). -/
def decodeFamily8 (w : Opcode) : Decoded :=
  match w.n.toNat with
  | 0x0 => .instr (.ldReg w.x w.y)
  | 0x1 => .instr (.orReg w.x w.y)
  | 0x2 => .instr (.andReg w.x w.y)
  | 0x3 => .instr (.xorReg w.x w.y)
  | 0x4 => .instr (.addReg w.x w.y)
  | 0x5 => .instr (.sub w.x w.y)
  | 0x6 => .instr (.shr w.x w.y)
  | 0x7 => .instr (.subn w.x w.y)
  | 0xE => .instr (.shl w.x w.y)
  | _ => .unknown

/-- Family E goes by the low byte (R94). -/
def decodeFamilyE (w : Opcode) : Decoded :=
  if w.kk = 0x9E then .instr (.skp w.x)
  else if w.kk = 0xA1 then .instr (.sknp w.x)
  else .unknown

/-- Family F goes by the low byte (R94). -/
def decodeFamilyF (w : Opcode) : Decoded :=
  if w.kk = 0x07 then .instr (.ldVxDt w.x)
  else if w.kk = 0x0A then .instr (.ldVxK w.x)
  else if w.kk = 0x15 then .instr (.ldDtVx w.x)
  else if w.kk = 0x18 then .instr (.ldStVx w.x)
  else if w.kk = 0x1E then .instr (.addI w.x)
  else if w.kk = 0x29 then .instr (.ldF w.x)
  else if w.kk = 0x33 then .instr (.ldB w.x)
  else if w.kk = 0x55 then .instr (.storeRegs w.x)
  else if w.kk = 0x65 then .instr (.loadRegs w.x)
  else .unknown

/-- The decoder: a pure function of the opcode, by the leading nibble and then, in families 0, 5, 8, 9, E and F, by a
secondary field (R94). The last arm is never reached: `op` has 4 bits. -/
def decode (w : Opcode) : Decoded :=
  match w.op.toNat with
  | 0x0 => decodeFamily0 w
  | 0x1 => .instr (.jp w.nnn)
  | 0x2 => .instr (.call w.nnn)
  | 0x3 => .instr (.seImm w.x w.kk)
  | 0x4 => .instr (.sneImm w.x w.kk)
  | 0x5 => if w.n = 0 then .instr (.seReg w.x w.y) else .unknown
  | 0x6 => .instr (.ldImm w.x w.kk)
  | 0x7 => .instr (.addImm w.x w.kk)
  | 0x8 => decodeFamily8 w
  | 0x9 => if w.n = 0 then .instr (.sneReg w.x w.y) else .unknown
  | 0xA => .instr (.ldI w.nnn)
  | 0xB => .instr (.jpV0 w.nnn)
  | 0xC => .instr (.rnd w.x w.kk)
  | 0xD => .instr (.drw w.x w.y (regOfBits w.n))
  | 0xE => decodeFamilyE w
  | 0xF => decodeFamilyF w
  | _ => .unknown

/-- The opcode whose high byte is `hi`: "big-endian merge: `high<<8 | low`" (20_memory.md R64). -/
def mergeBytes (hi lo : Byte) : Opcode := hi ++ lo

/-- The decoder on bytes, the one at the lower address first (R90): the classification and the bytes left over. -/
def decodeBytes : List Byte → Decoded × List Byte
  | hi :: lo :: rest => (decode (mergeBytes hi lo), rest)
  | bytes => (.truncated, bytes)

/-- The word of format NNN (R92). -/
def encodeNNN (op : BitVec 4) (nnn : BitVec 12) : Opcode := op ++ nnn

/-- The word of formats XKK and X, where the low byte is an immediate or a sub-opcode (R92). -/
def encodeXKK (op : BitVec 4) (x : Reg) (kk : Byte) : Opcode := (op ++ bitsOfReg x) ++ kk

/-- The word of formats XY and XYN, where the low nibble is a sub-opcode or a row count (R92). -/
def encodeXYN (op : BitVec 4) (x y : Reg) (n : BitVec 4) : Opcode := (op ++ bitsOfReg x) ++ (bitsOfReg y ++ n)

/-- The word of an instruction, written from the patterns and formats of R92 and R95. -/
def encode : Instr → Opcode
  | .cls => 0x00E0
  | .ret => 0x00EE
  | .jp nnn => encodeNNN 0x1 nnn
  | .call nnn => encodeNNN 0x2 nnn
  | .seImm x kk => encodeXKK 0x3 x kk
  | .sneImm x kk => encodeXKK 0x4 x kk
  | .seReg x y => encodeXYN 0x5 x y 0x0
  | .sneReg x y => encodeXYN 0x9 x y 0x0
  | .ldImm x kk => encodeXKK 0x6 x kk
  | .addImm x kk => encodeXKK 0x7 x kk
  | .ldReg x y => encodeXYN 0x8 x y 0x0
  | .orReg x y => encodeXYN 0x8 x y 0x1
  | .andReg x y => encodeXYN 0x8 x y 0x2
  | .xorReg x y => encodeXYN 0x8 x y 0x3
  | .addReg x y => encodeXYN 0x8 x y 0x4
  | .sub x y => encodeXYN 0x8 x y 0x5
  | .shr x y => encodeXYN 0x8 x y 0x6
  | .subn x y => encodeXYN 0x8 x y 0x7
  | .shl x y => encodeXYN 0x8 x y 0xE
  | .ldI nnn => encodeNNN 0xA nnn
  | .jpV0 nnn => encodeNNN 0xB nnn
  | .rnd x kk => encodeXKK 0xC x kk
  | .drw x y n => encodeXYN 0xD x y (bitsOfReg n)
  | .skp x => encodeXKK 0xE x 0x9E
  | .sknp x => encodeXKK 0xE x 0xA1
  | .ldVxDt x => encodeXKK 0xF x 0x07
  | .ldVxK x => encodeXKK 0xF x 0x0A
  | .ldDtVx x => encodeXKK 0xF x 0x15
  | .ldStVx x => encodeXKK 0xF x 0x18
  | .addI x => encodeXKK 0xF x 0x1E
  | .ldF x => encodeXKK 0xF x 0x29
  | .ldB x => encodeXKK 0xF x 0x33
  | .storeRegs x => encodeXKK 0xF x 0x55
  | .loadRegs x => encodeXKK 0xF x 0x65

/-- The high byte of a word, the one stored at the lower address (20_memory.md R64). -/
def highByte (w : Opcode) : Byte := w.extractLsb' 8 8

/-- The low byte of a word, the one stored at the higher address (R64). -/
def lowByte (w : Opcode) : Byte := w.extractLsb' 0 8

/-- The 16 bits of an instruction from a word of the opcode table that has `nbits` bits: the bits above them are 0. -/
def tableWord (nbits w : Nat) : Opcode := BitVec.ofNat 16 (w % 2 ^ nbits)

/-- The instruction this decoder reads from a word numbered as spec/opcode_table.json numbers it, its two bytes laid out as
the hardware stores them (R64). -/
def decodeTableWord (nbits w : Nat) : Option Instr :=
  match (decodeBytes [highByte (tableWord nbits w), lowByte (tableWord nbits w)]).1 with
  | .instr i => some i
  | .unknown => none
  | .truncated => none

end Sys2Proof
end

