-- ==== Sys2Proof/Machine/Flags.lean ====
section
/-! DEFINITION. The flag computations: what the six flag-setting instructions write to VF, always 0 or 1 (10_state.md R22,
43_alu.md R172). Each is computed from the operands as exact natural numbers, before any register is written (R171). -/

namespace Sys2Proof.Machine

/-- A flag as VF holds it: 0 or 1, never another value (10_state.md R22). -/
def flagByte : Bool → Byte
  | true => 1
  | false => 0

/-- 8xy4: 1 if the sum is above 255 (43_alu.md R166). -/
def addFlag (a b : Byte) : Byte := flagByte (decide (a.toNat + b.toNat > 255))

/-- 8xy5: 1 if Vx > Vy, strictly (43_alu.md R167, 90_conflicts.md C4, log entry 25). -/
def subFlag (a b : Byte) : Byte := flagByte (decide (a.toNat > b.toNat))

/-- 8xy7: 1 if Vy >= Vx (43_alu.md R169). -/
def subnFlag (a b : Byte) : Byte := flagByte (decide (b.toNat ≥ a.toNat))

/-- 8xy6: bit 0 of Vx before the shift (43_alu.md R168). -/
def shrFlag (a : Byte) : Byte := flagByte (a.getLsbD 0)

/-- 8xyE: bit 7 of Vx before the shift, as 0 or 1 (43_alu.md R170). -/
def shlFlag (a : Byte) : Byte := flagByte (a.getLsbD 7)

/-- Dxyn: 1 if some cell went from 1 to 0 (46_display.md R196). -/
def collisionFlag (collision : Bool) : Byte := flagByte collision

end Sys2Proof.Machine
end

