-- ==== Sys2Proof/Machine/State.lean ====
section
/-! DEFINITION. The state of the core (10_state.md R20), its ports (R35), the faults a step reports (60_exceptions.md R220),
and the state after reset (R40 to R44). -/

namespace Sys2Proof.Machine

/-- The five faults of 60_exceptions.md R220. A fault does not stop the core and transfers no control: the step delivers it
on the result ports (R228), that is in `State.result`, and answers a NEXT state, because "an aborting fault does not end the
run either" (40_step_cycle.md R129). No step and no meaning ends in `Host.Outcome.fault` (log entry 1). -/
inductive Fault where
  /-- Code 1, reporting: raised by the step whose opcode decodes to Unknown (R221). Safe: PC and the timers move as the spec
  says, and the report is in the state. -/
  | unhandledOpcode (opcode : Opcode)
  /-- Code 2, aborting: raised by 2nnn CALL when SP = 15 (R222). Safe: nothing else changes, as the spec says. -/
  | stackOverflow
  /-- Code 3, aborting: raised by 00EE RET when SP = 0 (R223). Safe: nothing else changes, as the spec says. -/
  | stackUnderflow
  /-- Code 4, aborting: raised by the fetch, Dxyn, Fx33, Fx55 and Fx65 for an access above 0xFFF; carries the lowest address
  out of bounds (R224). Safe: nothing else changes, as the spec says. -/
  | memoryOutOfBounds (addr : Addr)
  /-- Code 5, aborting: raised by Ex9E SKP and ExA1 SKNP when Vx > 0xF; carries Vx (R225). Safe: nothing else changes. -/
  | keyIndexOutOfRange (key : Byte)
  deriving DecidableEq, Repr

/-- Why an instruction has no meaning. -/
inductive Refusal where
  /-- Raised by an arm of `exec` whose instruction has no meaning yet; no arm does. Safe: the run stops. -/
  | notModelled (mnemonic : String)
  deriving DecidableEq, Repr

/-- An input port of the core, as the stream of its samples: those the host has already settled on, oldest first, and how
many samples have been taken so far. After the settled ones every sample is a free value (log entries 2 and 3). -/
structure InputPort (w : Nat) where
  settled : List (BitVec w)
  taken   : Nat
  deriving DecidableEq, Repr

/-- Memory, as the cells that differ from the reset contents (`Memory.unlisted`), addresses strictly rising
(10_state.md R29, R41, log entry 6). -/
abbrev Memory := List Host.Cell

/-- The framebuffer: a grid of 64 columns and 32 rows of one-bit cells, held as its 32 rows from the top; bit `px` of row `py`
is the cell of column `px`, that is `fb[px + 64*py]` (10_state.md R28, 46_display.md R197, log entry 7). -/
abbrev Framebuffer := Vector (BitVec 64) 32

/-- The state of the core, and its ports. -/
structure State where
  /-- V0 to VF (R21, R22) -/
  v : Vector Byte 16
  /-- the index register (R23) -/
  i : Addr
  /-- the address of the next instruction (R24) -/
  pc : Addr
  /-- the call stack (R25) -/
  stack : Vector Addr 16
  /-- the number of return addresses held, and the slot of the newest (R26) -/
  sp : BitVec 4
  /-- the delay timer (R27) -/
  dt : Byte
  /-- the sound timer (R27) -/
  st : Byte
  /-- the framebuffer (R28) -/
  fb : Framebuffer
  /-- memory (R29) -/
  mem : Memory
  /-- the result ports: the fault the step just done reported, or none for OK (R35, 60_exceptions.md R228) -/
  result : Option Fault
  /-- the keypad input `key[15:0]` (R30) -/
  keyIn : InputPort 16
  /-- the random input `rnd[7:0]` (R31) -/
  rndIn : InputPort 8
  deriving DecidableEq, Repr

/-- The machine right after reset (10_state.md R40 to R44). The values of PC, V, I, DT, ST, the stack slots and the
framebuffer are the spec's decisions D4 and D5 (log entry 4), the result OK its decision D18 (log entry 31); the inputs have no
reset value, so both streams begin with nothing settled (R44, log entries 2 and 3). -/
def State.reset : State where
  v := Vector.replicate 16 0
  i := 0
  pc := 0x200
  stack := Vector.replicate 16 0
  sp := 0
  dt := 0
  st := 0
  fb := Vector.replicate 32 0
  mem := []
  result := none
  keyIn := ⟨[], 0⟩
  rndIn := ⟨[], 0⟩

end Sys2Proof.Machine
end

