-- ==== Sys2Proof/Machine/Memory.lean ====
section
/-! DEFINITION. The operations over memory: the reset contents, reads and writes of a byte and of a block, the canonical form
(20_memory.md R60 to R66, 10_state.md R41, R42). Addresses are natural numbers: none of them wraps (R63, R73). -/

namespace Sys2Proof.Machine

/-- `FONT_BASE`, the address of the first font byte (00_scope.md R5, the spec's decision D2, log entry 5). -/
def fontBase : Nat := 0x050

/-- `FONT_TABLE`, 16 glyphs of 5 bytes (10_state.md R42). PRESUMED: the spec takes the bytes from general knowledge
(decision D3, log entry 5). -/
def fontTable : List Byte :=
  [0xF0, 0x90, 0x90, 0x90, 0xF0] ++ [0x20, 0x60, 0x20, 0x20, 0x70] ++
  [0xF0, 0x10, 0xF0, 0x80, 0xF0] ++ [0xF0, 0x10, 0xF0, 0x10, 0xF0] ++
  [0x90, 0x90, 0xF0, 0x10, 0x10] ++ [0xF0, 0x80, 0xF0, 0x10, 0xF0] ++
  [0xF0, 0x80, 0xF0, 0x90, 0xF0] ++ [0xF0, 0x10, 0x20, 0x40, 0x40] ++
  [0xF0, 0x90, 0xF0, 0x90, 0xF0] ++ [0xF0, 0x90, 0xF0, 0x10, 0xF0] ++
  [0xF0, 0x90, 0xF0, 0x90, 0x90] ++ [0xE0, 0x90, 0xE0, 0x90, 0xE0] ++
  [0xF0, 0x80, 0x80, 0x80, 0xF0] ++ [0xE0, 0x90, 0x90, 0x90, 0xE0] ++
  [0xF0, 0x80, 0xF0, 0x80, 0xF0] ++ [0xF0, 0x80, 0xF0, 0x80, 0x80]

/-- What an unlisted address reads as: the contents of memory at reset, zero except the font table (10_state.md R41). -/
def Memory.unlisted (a : Nat) : Byte :=
  if a < fontBase then 0 else fontTable.getD (a - fontBase) 0

/-- The byte at an address (R63, without the bounds check). -/
def Memory.read : Memory → Nat → Byte
  | [], a => Memory.unlisted a
  | (b, w) :: rest, a => if a = b then w else Memory.read rest a

/-- The cell that makes address `a` read as `w`: none where an unlisted address reads so already. -/
def Memory.cell (a : Nat) (w : Byte) : Memory := if w = Memory.unlisted a then [] else [(a, w)]

/-- Write a byte (R63, without the bounds check), keeping the canonical form. -/
def Memory.write : Memory → Nat → Byte → Memory
  | [], a, w => Memory.cell a w
  | (b, u) :: rest, a, w =>
    if a < b then Memory.cell a w ++ (b, u) :: rest
    else if a = b then Memory.cell a w ++ rest
    else (b, u) :: Memory.write rest a w

/-- Write the bytes of a list from an address upward, in increasing order of addresses (R68). -/
def Memory.writeBytes : Memory → Nat → List Byte → Memory
  | m, _, [] => m
  | m, a, w :: ws => Memory.writeBytes (Memory.write m a w) (a + 1) ws

/-- Canonical from an address upward: addresses strictly rising and inside memory, no cell equal to what an unlisted
address reads as. -/
def Memory.wfFrom : Nat → Memory → Bool
  | _, [] => true
  | lo, (a, w) :: rest =>
    decide (lo ≤ a) && decide (a < Config.memSize) && w != Memory.unlisted a && Memory.wfFrom (a + 1) rest

/-- The canonical form: equal memories are equal data. -/
def Memory.wf (m : Memory) : Bool := Memory.wfFrom 0 m

/-- `MemRead(addr, 1)`: the byte, or MemoryOutOfBounds for an address above 0xFFF (R63). -/
def Memory.readChecked (m : Memory) (a : Nat) : Except Fault Byte :=
  if a > 0xFFF then .error (.memoryOutOfBounds (BitVec.ofNat 16 a)) else .ok (Memory.read m a)

/-- The check an instruction makes before it accesses the `count` bytes from `base` upward: they all lie in memory, or it
accesses none (20_memory.md R63, R73, 44_index_memory.md R187, 46_display.md R196). -/
def blockInBounds (base : Addr) (count : Nat) : Bool := count == 0 || decide (base.toNat + count ≤ Config.memSize)

/-- The information of a block's MemoryOutOfBounds: its lowest address that is out of bounds (R187, 60_exceptions.md R224). -/
def blockFaultAddr (base : Addr) : Addr := if base.toNat ≤ 0xFFF then 0x1000 else base

end Sys2Proof.Machine
end

