-- ==== Sys2Proof/Machine/Operands.lean ====
section
/-! DEFINITION. The operand forms: the V registers, the immediates, the input ports, the block of memory at I
(30_encoding.md R93, 10_state.md R21, R30, R31). -/

namespace Sys2Proof.Machine

/-- `V[x]` (00_scope.md R7). -/
def State.getV (s : State) (x : Reg) : Byte := s.v[x.val]

/-- `V[x] <- b` (00_scope.md R7). No register is hard-wired (10_state.md R21). -/
def State.setV (s : State) (x : Reg) (b : Byte) : State := { s with v := s.v.set x.val b }

/-- Result, then flag: `V[x] <- result` and then `V[0xF] <- flag`, so that VF holds the flag whatever x is (43_alu.md R171,
the spec's decision D7, log entry 10). -/
def State.setVFlag (s : State) (x : Reg) (result flag : Byte) : State := (s.setV x result).setV Reg.vf flag

/-- A 12-bit address field as a 16-bit value, `zext_16(nnn)` (30_encoding.md R93). -/
def addrOfNNN (nnn : BitVec 12) : Addr := nnn.zeroExtend 16

/-- A byte as a 16-bit value, `zext_16` (00_scope.md R7). -/
def addrOfByte (b : Byte) : Addr := b.zeroExtend 16

/-- `stack[k]` (00_scope.md R7). -/
def State.getSlot (s : State) (k : BitVec 4) : Addr := s.stack[k.toNat]'k.isLt

/-- `stack[k] <- a` (00_scope.md R7). -/
def State.setSlot (s : State) (k : BitVec 4) (a : Addr) : State := { s with stack := s.stack.set k.toNat a k.isLt }

/-- The index of cell (px, py): `px + 64*py` (46_display.md R197). -/
def fbIndex (px py : Nat) : Nat := px + 64 * py

/-- The row of the framebuffer that cell `k` lies in; zero beyond the 32 rows, which no index reaches (R197). -/
def Framebuffer.rowOf (fb : Framebuffer) (k : Nat) : BitVec 64 := fb[k / 64]?.getD 0

/-- `fb[k]` (00_scope.md R7). -/
def Framebuffer.cell (fb : Framebuffer) (k : Nat) : Bool := (fb.rowOf k).getLsbD (k % 64)

/-- `fb[k] <- fb[k] ^ 1` (46_display.md R196). -/
def Framebuffer.toggle (fb : Framebuffer) (k : Nat) : Framebuffer :=
  fb.setIfInBounds (k / 64) (fb.rowOf k ^^^ (1#64 <<< (k % 64)))

/-- Every cell 0 (46_display.md R195). -/
def Framebuffer.clear : Framebuffer := Vector.replicate 32 0

/-- The sample an input port shows now: the oldest one settled, else the free value of its number. -/
def InputPort.current {w : Nat} (free : Nat → BitVec w) (p : InputPort w) : BitVec w :=
  match p.settled with
  | [] => free p.taken
  | b :: _ => b

/-- The port after its current sample has been taken. -/
def InputPort.advance {w : Nat} (p : InputPort w) : InputPort w := ⟨p.settled.tail, p.taken + 1⟩

/-- `key[15:0]`, this step's one sample of the keypad (10_state.md R30). -/
def State.key (s : State) : BitVec 16 := s.keyIn.current Config.keySample

/-- `rnd[7:0]`, the sample this step takes if it executes Cxkk (10_state.md R31). -/
def State.rnd (s : State) : Byte := s.rndIn.current Config.rndSample

/-- The lowest `k` among `from_`, `from_ + 1`, ... (`left` of them) with `key[k] = 1`. -/
def lowestKeyFrom (key : BitVec 16) : Nat → Nat → Option Nat
  | 0, _ => none
  | left + 1, from_ => if key.getLsbD from_ then some from_ else lowestKeyFrom key left (from_ + 1)

/-- The lowest key that is down, if some key is (47_keypad.md R202, the spec's decision D16, log entry 20). -/
def lowestKey (key : BitVec 16) : Option Nat := lowestKeyFrom key 16 0

/-- V0 to Vx, the block Fx55 stores: `x + 1` bytes, V0 first (44_index_memory.md R184). -/
def State.firstRegs (s : State) (x : Reg) : List Byte := s.v.toList.take (x.val + 1)

/-- The registers after `V[j] <- MemRead(base + j, 1)` for j = 0 .. count-1 (44_index_memory.md R185). -/
def loadBlock (m : Memory) (base : Nat) : Nat → Vector Byte 16 → Vector Byte 16
  | 0, v => v
  | k + 1, v => (loadBlock m base k v).setIfInBounds k (m.read (base + k))

/-- Hundreds, tens, ones (44_index_memory.md R183). -/
def bcdDigits (b : Byte) : List Byte :=
  [BitVec.ofNat 8 (b.toNat / 100), BitVec.ofNat 8 (b.toNat / 10 % 10), BitVec.ofNat 8 (b.toNat % 10)]

/-- `FONT_BASE + 5*Vx`, all 8 bits of Vx used (44_index_memory.md R182, the spec's decisions D2 and D9, log entries 5, 13). -/
def glyphAddr (b : Byte) : Addr := BitVec.ofNat 16 (fontBase + 5 * b.toNat)

end Sys2Proof.Machine
end

