-- ==== Sys2Proof/Machine/Ops.lean ====
section
/-! DEFINITION. The operations the step and the meanings share: the ways PC moves (40_step_cycle.md R122), taking a fault
(60_exceptions.md R228), the fetch (R121), the Unknown step (R126), the timer tick (R124) and the end of a step (R123). -/

namespace Sys2Proof.Machine

/-- Fall through: `pc <- (PC + 2) mod 65536` (40_step_cycle.md R122). -/
def State.fallThrough (s : State) : State := { s with pc := s.pc + 2 }

/-- Skip or fall through: `(PC + 4) mod 65536` if the condition holds, else `(PC + 2) mod 65536` (R122). -/
def State.skipIf (s : State) (c : Bool) : State := { s with pc := if c then s.pc + 4 else s.pc + 2 }

/-- `pc <- target` (R122); no target is checked (41_control_transfer.md R144). -/
def State.jumpTo (s : State) (target : Addr) : State := { s with pc := target }

/-- TAKING A FAULT, all of it: the fault appears on the result ports; no register, no memory byte and not even PC changes,
nothing is saved, no mode or mask exists, and there is no handler to go to (60_exceptions.md R228, 00_scope.md R8). There
is no return from a fault beside it: the host asks for another step (R229). -/
def State.raise (s : State) (f : Fault) : Host.Outcome State Fault Refusal := .next { s with result := some f }

/-- The aborting faults, whose step changes nothing and does not tick; UnhandledOpcode is the one reporting fault
(60_exceptions.md R220, 40_step_cycle.md R123). -/
def Fault.aborts : Fault → Bool
  | .unhandledOpcode _ => false
  | .stackOverflow => true
  | .stackUnderflow => true
  | .memoryOutOfBounds _ => true
  | .keyIndexOutOfRange _ => true

/-- The step just done was aborted. -/
def State.aborted (s : State) : Bool :=
  match s.result with
  | none => false
  | some f => f.aborts

/-- One timer's count-down: "never go below 0" (10_state.md R27). -/
def tickTimer (t : Byte) : Byte := if t = 0 then 0 else t - 1

/-- The timer tick (40_step_cycle.md R124). -/
def State.tick (s : State) : State := { s with dt := tickTimer s.dt, st := tickTimer s.st }

/-- The start of a step: the result of the step before is no longer shown (10_state.md R35, 60_exceptions.md R228). -/
def State.beginStep (s : State) : State := { s with result := none }

/-- The keypad sample of this step is used up: the next step takes the next one (10_state.md R30, log entry 2). -/
def State.takeKey (s : State) : State := { s with keyIn := s.keyIn.advance }

/-- The end of a step: every committed step ticks, the UnhandledOpcode step among them; an aborted one does not
(40_step_cycle.md R123, R124, the spec's decisions D12, D13, D17, log entries 16, 17, 21). -/
def State.finishStep (s : State) : State := (if s.aborted then s else s.tick).takeKey

/-- The fetch: two byte reads, high byte first, PC + 1 not wrapped (40_step_cycle.md R121). -/
def State.fetch (s : State) : Except Fault Opcode :=
  match s.mem.readChecked s.pc.toNat with
  | .error f => .error f
  | .ok hi =>
    match s.mem.readChecked (s.pc.toNat + 1) with
    | .error f => .error f
    | .ok lo => .ok (mergeBytes hi lo)

/-- An opcode that decodes to Unknown: PC + 2 and the report; the tick comes with the end of the step (40_step_cycle.md R126). -/
def State.unhandled (s : State) (opcode : Opcode) : Host.Outcome State Fault Refusal :=
  s.fallThrough.raise (.unhandledOpcode opcode)

/-- The end of a step on an outcome. -/
def finishOutcome : Host.Outcome State Fault Refusal → Host.Outcome State Fault Refusal
  | .next t => .next t.finishStep
  | .fault f => .fault f
  | .refused r => .refused r

/-- Store `bytes` at I upward and fall through, or MemoryOutOfBounds before the first write (44_index_memory.md R187). -/
def State.storeAtI (s : State) (bytes : List Byte) : Host.Outcome State Fault Refusal :=
  if blockInBounds s.i bytes.length then
    .next ({ s with mem := s.mem.writeBytes s.i.toNat bytes } : State).fallThrough
  else s.raise (.memoryOutOfBounds (blockFaultAddr s.i))

/-- Place a word where the next step fetches: high byte at PC, low byte at PC + 1 (20_memory.md R64). Where no fetch can
succeed, PC above 0xFFE, PC first goes to `PROG_BASE` (log entry 28). -/
def State.placeWord (s : State) (w : Opcode) : State :=
  let at_ : Addr := if s.pc.toNat ≤ 0xFFE then s.pc else BitVec.ofNat 16 Config.progBase
  { s with pc := at_, mem := s.mem.writeBytes at_.toNat [highByte w, lowByte w] }

end Sys2Proof.Machine
end

