-- ==== Sys2Proof/Machine/Alu.lean ====
section
/-! DEFINITION. Register loads and the ALU (spec/43_alu.md). Sources are read first, the result is written to Vx, and the five
flag-setting instructions write VF last (R171). All of them fall through (log entry 11). -/

namespace Sys2Proof.Machine

/-- 6xkk LD Vx, kk (R160). -/
def execLdImm (x : Reg) (kk : Byte) (s : State) : Host.Outcome State Fault Refusal :=
  .next (s.setV x kk).fallThrough

/-- 7xkk ADD Vx, kk (R161): modulo 256, no flag. -/
def execAddImm (x : Reg) (kk : Byte) (s : State) : Host.Outcome State Fault Refusal :=
  .next (s.setV x (s.getV x + kk)).fallThrough

/-- 8xy0 LD Vx, Vy (R162). -/
def execLdReg (x y : Reg) (s : State) : Host.Outcome State Fault Refusal :=
  .next (s.setV x (s.getV y)).fallThrough

/-- 8xy1 OR Vx, Vy (R163): VF is not written as a flag. -/
def execOrReg (x y : Reg) (s : State) : Host.Outcome State Fault Refusal :=
  .next (s.setV x (s.getV x ||| s.getV y)).fallThrough

/-- 8xy2 AND Vx, Vy (R164). -/
def execAndReg (x y : Reg) (s : State) : Host.Outcome State Fault Refusal :=
  .next (s.setV x (s.getV x &&& s.getV y)).fallThrough

/-- 8xy3 XOR Vx, Vy (R165). -/
def execXorReg (x y : Reg) (s : State) : Host.Outcome State Fault Refusal :=
  .next (s.setV x (s.getV x ^^^ s.getV y)).fallThrough

/-- 8xy4 ADD Vx, Vy (R166): VF is always written (90_conflicts.md C3). -/
def execAddReg (x y : Reg) (s : State) : Host.Outcome State Fault Refusal :=
  .next (s.setVFlag x (s.getV x + s.getV y) (addFlag (s.getV x) (s.getV y))).fallThrough

/-- 8xy5 SUB Vx, Vy (R167). -/
def execSub (x y : Reg) (s : State) : Host.Outcome State Fault Refusal :=
  .next (s.setVFlag x (s.getV x - s.getV y) (subFlag (s.getV x) (s.getV y))).fallThrough

/-- 8xy6 SHR Vx (R168); the y field is ignored (30_encoding.md R98). -/
def execShr (x _y : Reg) (s : State) : Host.Outcome State Fault Refusal :=
  .next (s.setVFlag x (s.getV x >>> 1) (shrFlag (s.getV x))).fallThrough

/-- 8xy7 SUBN Vx, Vy (R169): Vy minus Vx, into Vx. -/
def execSubn (x y : Reg) (s : State) : Host.Outcome State Fault Refusal :=
  .next (s.setVFlag x (s.getV y - s.getV x) (subnFlag (s.getV x) (s.getV y))).fallThrough

/-- 8xyE SHL Vx (R170); the y field is ignored (30_encoding.md R98). -/
def execShl (x _y : Reg) (s : State) : Host.Outcome State Fault Refusal :=
  .next (s.setVFlag x (s.getV x <<< 1) (shlFlag (s.getV x))).fallThrough

end Sys2Proof.Machine
end

