-- ==== Sys2Proof/Machine/ControlTransfer.lean ====
section
/-! DEFINITION. Control transfer and the stack controller (spec/41_control_transfer.md). Before an instruction writes PC, PC is
the address of that instruction (10_state.md R24). -/

namespace Sys2Proof.Machine

/-- 00EE RET (R140): PC from `stack[SP]` plus 2, SP down by 1; the slot keeps its value (90_conflicts.md C9). -/
def execRet (s : State) : Host.Outcome State Fault Refusal :=
  if s.sp = 0 then s.raise .stackUnderflow
  else .next { s with pc := s.getSlot s.sp + 2, sp := s.sp - 1 }

/-- 1nnn JP nnn (R141). -/
def execJp (nnn : BitVec 12) (s : State) : Host.Outcome State Fault Refusal :=
  .next (s.jumpTo (addrOfNNN nnn))

/-- 2nnn CALL nnn (R142): SP up by 1 first, and the raised SP names the slot that takes the address of this CALL
(the spec's decision D14, log entry 18). -/
def execCall (nnn : BitVec 12) (s : State) : Host.Outcome State Fault Refusal :=
  if s.sp.toNat = Config.maxDepth then s.raise .stackOverflow
  else .next (({ s with sp := s.sp + 1 } : State).setSlot (s.sp + 1) s.pc |>.jumpTo (addrOfNNN nnn))

/-- Bnnn JP V0, nnn (R143): a 16-bit sum, not cut to 12 bits (the spec's decision D8, log entry 12). -/
def execJpV0 (nnn : BitVec 12) (s : State) : Host.Outcome State Fault Refusal :=
  .next (s.jumpTo (addrOfNNN nnn + addrOfByte (s.getV 0)))

end Sys2Proof.Machine
end

