-- ==== Sys2Proof/Machine/Display.lean ====
section
/-! DEFINITION. The sprite drawing engine (spec/46_display.md). -/

namespace Sys2Proof.Machine

/-- The drawing so far: the framebuffer, and whether some cell went from 1 to 0. -/
structure Drawing where
  fb        : Framebuffer
  collision : Bool
  deriving DecidableEq, Repr

/-- The index of the cell that column `col` of row `row` of a sprite at (cx, cy) falls on: the coordinates wrap modulo 64 and
32, per pixel (R196). -/
def spriteCell (cx cy : Byte) (row col : Nat) : Nat := fbIndex ((cx.toNat + col) % 64) ((cy.toNat + row) % 32)

/-- One pixel of a sprite row `b`, most significant bit first (R196). -/
def drawPixel (cx cy : Byte) (row : Nat) (b : Byte) (col : Nat) (d : Drawing) : Drawing :=
  if b.getLsbD (7 - col) then
    ⟨d.fb.toggle (spriteCell cx cy row col), d.collision || d.fb.cell (spriteCell cx cy row col)⟩
  else d

/-- The first `cols` pixels of a sprite row, in increasing order of columns. -/
def drawRow (cx cy : Byte) (row : Nat) (b : Byte) : Nat → Drawing → Drawing
  | 0, d => d
  | cols + 1, d => drawPixel cx cy row b cols (drawRow cx cy row b cols d)

/-- The first `rows` rows of the sprite that lies at `base` in memory, in increasing order of rows. -/
def drawRows (cx cy : Byte) (m : Memory) (base : Nat) : Nat → Drawing → Drawing
  | 0, d => d
  | rows + 1, d => drawRow cx cy rows (m.read (base + rows)) 8 (drawRows cx cy m base rows d)

/-- 00E0 CLS (R195): VF is not written. -/
def execCls (s : State) : Host.Outcome State Fault Refusal :=
  .next ({ s with fb := Framebuffer.clear } : State).fallThrough

/-- Dxyn DRW Vx, Vy, n (R196): bounds first, coordinates read before VF is written, VF once after the whole sprite; with
n = 0 nothing is read and no fault is possible (the spec's decision D25, log entry 23). -/
def execDrw (x y : Reg) (n : Fin 16) (s : State) : Host.Outcome State Fault Refusal :=
  if blockInBounds s.i n.val then
    let d := drawRows (s.getV x) (s.getV y) s.mem s.i.toNat n.val ⟨s.fb, false⟩
    .next (({ s with fb := d.fb } : State).setV Reg.vf (collisionFlag d.collision)).fallThrough
  else s.raise (.memoryOutOfBounds (blockFaultAddr s.i))

end Sys2Proof.Machine
end

