-- ==== Sys2Proof/Machine/IndexMemory.lean ====
section
/-! DEFINITION. The index register and the memory transfers (spec/44_index_memory.md). A transfer leaves I as it was (R186, log
entry 14), checks its whole block before it writes anything (R187, log entry 15), and falls through (log entry 11). -/

namespace Sys2Proof.Machine

/-- Annn LD I, nnn (R180). -/
def execLdI (nnn : BitVec 12) (s : State) : Host.Outcome State Fault Refusal :=
  .next ({ s with i := addrOfNNN nnn } : State).fallThrough

/-- Fx1E ADD I, Vx (R181): modulo 65536, no flag, no fault. -/
def execAddI (x : Reg) (s : State) : Host.Outcome State Fault Refusal :=
  .next ({ s with i := s.i + addrOfByte (s.getV x) } : State).fallThrough

/-- Fx29 LD F, Vx (R182): only an address is computed. -/
def execLdF (x : Reg) (s : State) : Host.Outcome State Fault Refusal :=
  .next ({ s with i := glyphAddr (s.getV x) } : State).fallThrough

/-- Fx33 LD B, Vx (R183). -/
def execLdB (x : Reg) (s : State) : Host.Outcome State Fault Refusal :=
  s.storeAtI (bcdDigits (s.getV x))

/-- Fx55 LD [I], Vx (R184): x is a count taken from the opcode. -/
def execStoreRegs (x : Reg) (s : State) : Host.Outcome State Fault Refusal :=
  s.storeAtI (s.firstRegs x)

/-- Fx65 LD Vx, [I] (R185). -/
def execLoadRegs (x : Reg) (s : State) : Host.Outcome State Fault Refusal :=
  if blockInBounds s.i (x.val + 1) then
    .next ({ s with v := loadBlock s.mem s.i.toNat (x.val + 1) s.v } : State).fallThrough
  else s.raise (.memoryOutOfBounds (blockFaultAddr s.i))

end Sys2Proof.Machine
end

