-- ==== Sys2Proof/Machine/Keypad.lean ====
section
/-! DEFINITION. The keypad instructions (spec/47_keypad.md), the only ones that read the keypad (R203). -/

namespace Sys2Proof.Machine

/-- Ex9E SKP Vx (R200). -/
def execSkp (x : Reg) (s : State) : Host.Outcome State Fault Refusal :=
  if (s.getV x).toNat > 0xF then s.raise (.keyIndexOutOfRange (s.getV x))
  else .next (s.skipIf (s.key.getLsbD (s.getV x).toNat))

/-- ExA1 SKNP Vx (R201). -/
def execSknp (x : Reg) (s : State) : Host.Outcome State Fault Refusal :=
  if (s.getV x).toNat > 0xF then s.raise (.keyIndexOutOfRange (s.getV x))
  else .next (s.skipIf (!s.key.getLsbD (s.getV x).toNat))

/-- The state after Fx0A, given the lowest key that is down: with none, V and PC stay, so the next step runs the same Fx0A
again (R202). -/
def State.keyWait (s : State) (x : Reg) (key : Option Nat) : State :=
  { s with
    v := key.elim s.v fun k => (s.setV x (BitVec.ofNat 8 k)).v
    pc := key.elim s.pc fun _ => s.fallThrough.pc }

/-- Fx0A LD Vx, K (R202): polling, not a wait; the waiting step is a committed step with result OK. -/
def execLdVxK (x : Reg) (s : State) : Host.Outcome State Fault Refusal :=
  .next (s.keyWait x (lowestKey s.key))

end Sys2Proof.Machine
end

