-- ==== Sys2Proof/Machine/Random.lean ====
section
/-! DEFINITION. The random byte (spec/45_random.md). -/

namespace Sys2Proof.Machine

/-- Cxkk RND Vx, kk (R190): takes exactly one sample of the random input, the only instruction that takes one (R191). -/
def execRnd (x : Reg) (kk : Byte) (s : State) : Host.Outcome State Fault Refusal :=
  .next ({ s.setV x (s.rnd &&& kk) with rndIn := s.rndIn.advance } : State).fallThrough

end Sys2Proof.Machine
end

