-- ==== Sys2Proof/Machine/Timers.lean ====
section
/-! DEFINITION. The timer instructions (spec/48_timers.md). The tick comes after them, at the end of the step (R213). -/

namespace Sys2Proof.Machine

/-- Fx07 LD Vx, DT (R210): DT as it stands before this step's tick. -/
def execLdVxDt (x : Reg) (s : State) : Host.Outcome State Fault Refusal :=
  .next (s.setV x s.dt).fallThrough

/-- Fx15 LD DT, Vx (R211). -/
def execLdDtVx (x : Reg) (s : State) : Host.Outcome State Fault Refusal :=
  .next ({ s with dt := s.getV x } : State).fallThrough

/-- Fx18 LD ST, Vx (R212). -/
def execLdStVx (x : Reg) (s : State) : Host.Outcome State Fault Refusal :=
  .next ({ s with st := s.getV x } : State).fallThrough

end Sys2Proof.Machine
end

