-- ==== Sys2Proof/Machine/Step.lean ====
section
/-! DEFINITION. The step, the only action of the core (spec/40_step_cycle.md R120), and the placing of a word where the next
step fetches. -/

namespace Sys2Proof.Machine

/-- The body of a step, on a state whose result ports have been cleared: fetch, decode, and the Unknown step or one
instruction (R120, R127). -/
def stepBody (s : State) : Host.Outcome State Fault Refusal :=
  match s.fetch with
  | .error f => s.raise f
  | .ok opcode =>
    match decode opcode with
    | .instr i => exec i s
    | .unknown => s.unhandled opcode
    | .truncated => s.unhandled opcode

/-- One step (R120). -/
def step (s : State) : Host.Outcome State Fault Refusal := finishOutcome (stepBody s.beginStep)

/-- The state with a word of spec/opcode_table.json placed where the next step fetches its instruction (log entry 28). -/
def State.withFetchWord (s : State) (nbits w : Nat) : State := s.placeWord (tableWord nbits w)

end Sys2Proof.Machine
end

