-- ==== Sys2Proof/Machine/Listing.lean ====
section
/-! DEFINITION. The assembler text of an opcode, in the spec's own fixed form, on the one decoder (spec/30_encoding.md R99 to
R101). It never reads or changes a state. -/

namespace Sys2Proof.Machine

/-- One upper-case hexadecimal digit. -/
def hexDigit (k : Nat) : Char := if k % 16 < 10 then Char.ofNat (48 + k % 16) else Char.ofNat (55 + k % 16)

/-- The lowest `digits` hexadecimal digits of a number, most significant first. -/
def hexText : Nat → Nat → String
  | 0, _ => ""
  | digits + 1, k => hexText digits (k / 16) ++ String.singleton (hexDigit k)

/-- A register: `V` and one upper-case hexadecimal digit (R99). -/
def regText (x : Reg) : String := "V" ++ hexText 1 x.val

/-- An immediate byte: `0x` and two hexadecimal digits (R99). -/
def byteText (kk : Byte) : String := "0x" ++ hexText 2 kk.toNat

/-- An address: `0x` and three hexadecimal digits (R99). -/
def addrText (nnn : BitVec 12) : String := "0x" ++ hexText 3 nnn.toNat

/-- A mnemonic with one or two operands, destination first, separated by a comma and one space (R99). -/
def text2 (mnemonic a b : String) : String := mnemonic ++ " " ++ a ++ ", " ++ b

/-- A shift: one operand, because y is ignored; a listing that must show a nonzero y adds it in braces (R99). -/
def shiftText (mnemonic : String) (x y : Reg) : String :=
  if y = 0 then mnemonic ++ " " ++ regText x
  else mnemonic ++ " " ++ regText x ++ " " ++ String.singleton (Char.ofNat 123) ++ ", " ++ regText y ++
    String.singleton (Char.ofNat 125)

/-- The text of an instruction (R95, R99). -/
def instrText : Instr → String
  | .cls => "CLS"
  | .ret => "RET"
  | .jp nnn => "JP " ++ addrText nnn
  | .call nnn => "CALL " ++ addrText nnn
  | .seImm x kk => text2 "SE" (regText x) (byteText kk)
  | .sneImm x kk => text2 "SNE" (regText x) (byteText kk)
  | .seReg x y => text2 "SE" (regText x) (regText y)
  | .sneReg x y => text2 "SNE" (regText x) (regText y)
  | .ldImm x kk => text2 "LD" (regText x) (byteText kk)
  | .addImm x kk => text2 "ADD" (regText x) (byteText kk)
  | .ldReg x y => text2 "LD" (regText x) (regText y)
  | .orReg x y => text2 "OR" (regText x) (regText y)
  | .andReg x y => text2 "AND" (regText x) (regText y)
  | .xorReg x y => text2 "XOR" (regText x) (regText y)
  | .addReg x y => text2 "ADD" (regText x) (regText y)
  | .sub x y => text2 "SUB" (regText x) (regText y)
  | .shr x y => shiftText "SHR" x y
  | .subn x y => text2 "SUBN" (regText x) (regText y)
  | .shl x y => shiftText "SHL" x y
  | .ldI nnn => text2 "LD" "I" (addrText nnn)
  | .jpV0 nnn => text2 "JP" "V0" (addrText nnn)
  | .rnd x kk => text2 "RND" (regText x) (byteText kk)
  | .drw x y n => text2 "DRW" (regText x) (regText y) ++ ", " ++ toString n.val
  | .skp x => "SKP " ++ regText x
  | .sknp x => "SKNP " ++ regText x
  | .ldVxDt x => text2 "LD" (regText x) "DT"
  | .ldVxK x => text2 "LD" (regText x) "K"
  | .ldDtVx x => text2 "LD" "DT" (regText x)
  | .ldStVx x => text2 "LD" "ST" (regText x)
  | .addI x => text2 "ADD" "I" (regText x)
  | .ldF x => text2 "LD" "F" (regText x)
  | .ldB x => text2 "LD" "B" (regText x)
  | .storeRegs x => text2 "LD" "[I]" (regText x)
  | .loadRegs x => text2 "LD" (regText x) "[I]"

/-- The text of an opcode: an Unknown one is `.word 0xhhhh` (R99, R100). -/
def listing (w : Opcode) : String :=
  match decode w with
  | .instr i => instrText i
  | .unknown => ".word 0x" ++ hexText 4 w.toNat
  | .truncated => ".word 0x" ++ hexText 4 w.toNat

end Sys2Proof.Machine
end

