-- ==== Sys2Proof/Machine/Ports.lean ====
section
/-! DEFINITION. The ports of the core as the host sees them, between steps (spec/10_state.md R35 to R37,
70_reset_and_hazards.md R250, R252). -/

namespace Sys2Proof.Machine

/-- `result_code` of a fault (60_exceptions.md R220, the spec's decision D18, log entry 31). -/
def Fault.code : Fault → BitVec 3
  | .unhandledOpcode _ => 1
  | .stackOverflow => 2
  | .stackUnderflow => 3
  | .memoryOutOfBounds _ => 4
  | .keyIndexOutOfRange _ => 5

/-- `result_info` of a fault (60_exceptions.md R220). -/
def Fault.info : Fault → BitVec 16
  | .unhandledOpcode opcode => opcode
  | .stackOverflow => 0
  | .stackUnderflow => 0
  | .memoryOutOfBounds addr => addr
  | .keyIndexOutOfRange key => addrOfByte key

/-- The output port `result_code[2:0]`: 0 is OK (10_state.md R35, 60_exceptions.md R220). -/
def State.resultCode (s : State) : BitVec 3 :=
  match s.result with
  | none => 0
  | some f => f.code

/-- The output port `result_info[15:0]` (10_state.md R35, 60_exceptions.md R220). -/
def State.resultInfo (s : State) : BitVec 16 :=
  match s.result with
  | none => 0
  | some f => f.info

/-- The framebuffer read port: 2048 cells, row-major, index `x + y*64` (10_state.md R36). -/
def State.framebufferPort (s : State) : List Bool := (List.range 2048).map fun k => s.fb.cell k

/-- The `reset` port: every piece of state to its reset value. The inputs are not state, so their streams go on where they
are (10_state.md R35, R44, 70_reset_and_hazards.md R250, log entry 9). -/
def State.assertReset (s : State) : State := { State.reset with keyIn := s.keyIn, rndIn := s.rndIn }

/-- The load port: byte k of the image to `mem[0x200 + k]`; an image that does not fit is refused whole and nothing is
loaded (10_state.md R37, 70_reset_and_hazards.md R252, the spec's decision D22, log entry 26). -/
def State.loadImage (s : State) (image : List Byte) : Option State :=
  if Image.wellFormed image then some { s with mem := s.mem.writeBytes Config.progBase image } else none

/-- The host drives the keypad: the samples of the next steps, oldest first (10_state.md R30). -/
def State.driveKeys (s : State) (keys : List (BitVec 16)) : State := { s with keyIn := ⟨keys, s.keyIn.taken⟩ }

/-- The host drives the random input: the values of the next draws, oldest first (10_state.md R31). -/
def State.driveRnd (s : State) (draws : List Byte) : State := { s with rndIn := ⟨draws, s.rndIn.taken⟩ }

end Sys2Proof.Machine
end

