-- ==== Sys2Proof/Safety.lean ====
section
/-! DEFINITION. The terms in which claims speak of the machine: what a step leaves unchanged, which instruction writes what, the
invariant, and safe runs. Nothing here is used by the machine. -/

namespace Sys2Proof

/-- The registers an instruction may write, VF as flag among them (10_state.md R21, R22). -/
def Instr.writesReg : Instr → Reg → Bool
  | .ldImm x _, j | .addImm x _, j | .ldReg x _, j | .orReg x _, j | .andReg x _, j | .xorReg x _, j | .rnd x _, j
  | .ldVxDt x, j | .ldVxK x, j => j == x
  | .addReg x _, j | .sub x _, j | .shr x _, j | .subn x _, j | .shl x _, j => j == x || j == Reg.vf
  | .drw _ _ _, j => j == Reg.vf
  | .loadRegs x, j => decide (j ≤ x)
  | .cls, _ | .ret, _ | .jp _, _ | .call _, _ | .seImm _ _, _ | .sneImm _ _, _ | .seReg _ _, _ | .sneReg _ _, _ | .ldI _, _
  | .jpV0 _, _ | .skp _, _ | .sknp _, _ | .ldDtVx _, _ | .ldStVx _, _ | .addI _, _ | .ldF _, _ | .ldB _, _
  | .storeRegs _, _ => false

/-- How many bytes from I upward an instruction accesses (20_memory.md R60). -/
def Instr.blockLength : Instr → Nat
  | .drw _ _ n => n.val
  | .ldB _ => 3
  | .storeRegs x | .loadRegs x => x.val + 1
  | .cls | .ret | .jp _ | .call _ | .seImm _ _ | .sneImm _ _ | .seReg _ _ | .sneReg _ _ | .ldImm _ _ | .addImm _ _ | .ldReg _ _
  | .orReg _ _ | .andReg _ _ | .xorReg _ _ | .addReg _ _ | .sub _ _ | .shr _ _ | .subn _ _ | .shl _ _ | .ldI _ | .jpV0 _
  | .rnd _ _ | .skp _ | .sknp _ | .ldVxDt _ | .ldVxK _ | .ldDtVx _ | .ldStVx _ | .addI _ | .ldF _ => 0

end Sys2Proof

namespace Sys2Proof.Machine

/-- The parts of State: the nine of 10_state.md R20 and the three ports of R35. -/
inductive Part where
  | regs | index | pc | stack | sp | dt | st | fb | mem | result | keyIn | rndIn
  deriving DecidableEq, Repr

/-- A part reads the same in two states: every register, every slot, every cell, every byte of memory. -/
def Part.same (s t : State) : Part → Prop
  | .regs => ∀ x : Reg, t.getV x = s.getV x
  | .index => t.i = s.i
  | .pc => t.pc = s.pc
  | .stack => ∀ k : BitVec 4, t.getSlot k = s.getSlot k
  | .sp => t.sp = s.sp
  | .dt => t.dt = s.dt
  | .st => t.st = s.st
  | .fb => ∀ k : Nat, t.fb.cell k = s.fb.cell k
  | .mem => ∀ a : Nat, t.mem.read a = s.mem.read a
  | .result => t.result = s.result
  | .keyIn => t.keyIn = s.keyIn
  | .rndIn => t.rndIn = s.rndIn

/-- The frame: every part that is not listed reads the same before and after. -/
def ChangesOnly (parts : List Part) (s t : State) : Prop := ∀ p : Part, p ∉ parts → p.same s t

/-- The word at PC, whose bytes lie in memory when PC <= 0xFFE (40_step_cycle.md R121). -/
def State.wordAtPc (s : State) : Opcode := mergeBytes (s.mem.read s.pc.toNat) (s.mem.read (s.pc.toNat + 1))

/-- The next step runs instruction `i`: PC lies where a fetch succeeds and the word there decodes to `i`. -/
def State.Runs (s : State) (i : Instr) : Prop := s.pc.toNat ≤ 0xFFE ∧ decode s.wordAtPc = .instr i

/-- Column `px`, row `py` of the screen is under a set bit of the `n`-row sprite at I drawn at (cx, cy): bit 7 of a sprite row
is its leftmost pixel, and the coordinates wrap per pixel (46_display.md R196). -/
def State.SpriteLights (s : State) (cx cy : Byte) (n px py : Nat) : Prop :=
  ∃ row < n, ∃ col < 8, (s.mem.read (s.i.toNat + row)).getLsbD (7 - col) = true ∧
    px = (cx.toNat + col) % 64 ∧ py = (cy.toNat + row) % 32

/-- Apply a change of state to a next state. -/
def mapNext (change : State → State) : Host.Outcome State Fault Refusal → Host.Outcome State Fault Refusal
  | .next t => .next (change t)
  | .fault f => .fault f
  | .refused r => .refused r

/-- The invariant of the core: memory has its canonical form, PC is a value some instruction can leave there (at most
0x0FFF + 0xFF, 41_control_transfer.md R143), and every return address held is an address a CALL was fetched from (R140). -/
structure State.Inv (s : State) : Prop where
  canonical : s.mem.wf = true
  pcBound : s.pc.toNat ≤ 0x10FE
  returnBound : ∀ k : BitVec 4, 1 ≤ k.toNat → k.toNat ≤ s.sp.toNat → (s.getSlot k).toNat ≤ 0xFFE

/-- A safe step answers a next state and reports OK: a claim about a run counts a step with a fault as failed
(93_implementation_defined.md U4, U21). -/
def SafeStep (s t : State) : Prop := step s = .next t ∧ t.result = none

/-- `n` safe steps lead from one state to another. -/
inductive SafeRun : Nat → State → State → Prop
  | done (s : State) : SafeRun 0 s s
  | step {n : Nat} {s t u : State} : SafeStep s t → SafeRun n t u → SafeRun (n + 1) s u

end Sys2Proof.Machine
end

