-- ==== Sys2Proof/Certificates/Slice0/Obligations.lean ====
section
/-! DEFINITION. The statements for the provers. Each says what it formalises; one that rests on a decision the spec marks as its
own, or on a choice of the model, names it. `exec` is the meaning of an instruction without the step around it: the clearing
of the result ports before it, and the timer tick and the use of the keypad sample after it, are stated of `step`. -/

open Sys2Proof Sys2Proof.Machine

/-! ### Encoding -/

/-- Words written out from the patterns of 30_encoding.md R95, one or two of each format, decode to what they stand for. That
0x5121 and 0x0000 are Unknown is the spec's decision D24 (log entry 22); 0x800F is the source's own kind of example (R96). -/
def Obligations.WrittenOutWordsDecode : Prop :=
  decode 0x00E0 = .instr .cls ∧ decode 0x00EE = .instr .ret ∧ decode 0x1ABC = .instr (.jp 0xABC) ∧
  decode 0x332A = .instr (.seImm 3 0x2A) ∧ decode 0x8125 = .instr (.sub 1 2) ∧ decode 0x812E = .instr (.shl 1 2) ∧
  decode 0xD01F = .instr (.drw 0 1 15) ∧ decode 0xE5A1 = .instr (.sknp 5) ∧ decode 0xF255 = .instr (.storeRegs 2) ∧
  decode 0x5121 = .unknown ∧ decode 0x800F = .unknown ∧ decode 0x0000 = .unknown

/-- Decoding the word of an instruction gives it back, for every instruction and every operand. -/
def Obligations.DecodeOfEncodeIsTheInstruction : Prop :=
  ∀ i : Instr, decode (encode i) = .instr i

/-- A word that decodes to an instruction is the word of that instruction: no bit of it is lost. -/
def Obligations.EncodeOfDecodeIsTheWord : Prop :=
  ∀ (w : Opcode) (i : Instr), decode w = .instr i → encode i = w

/-- R95: an opcode is an instruction exactly when `opcode & mask == match` for its row, and R96: an opcode that matches no
row is Unknown, which for 0nnn, 5xyn and 9xyn outside the rows is the spec's decision D24 (log entry 22). -/
def Obligations.DecoderFollowsTheOpcodeMap : Prop :=
  (∀ (w : Opcode) (r : OpcodeRow), r ∈ opcodeMap → (r.admits w = true ↔ ∃ i, decode w = .instr i ∧ i.row = r)) ∧
  (∀ w : Opcode, (∀ r ∈ opcodeMap, r.admits w = false) ↔ decode w = .unknown)

/-! ### The step -/

/-- A step whose word at PC decodes to an instruction runs exactly it, on the state with the result ports cleared; then, in a
committed step, each nonzero timer loses 1, and an aborted one does not tick; the keypad sample is used up. The tick in
committed steps only is the spec's decisions D12 and D17 (log entries 16, 21). -/
def Obligations.StepRunsTheDecodedInstruction : Prop :=
  ∀ (s t : State) (i : Instr), s.Runs i → exec i { s with result := none } = .next t →
    step s = .next { t with
      dt := if t.aborted then t.dt else if t.dt = 0 then 0 else t.dt - 1
      st := if t.aborted then t.st else if t.st = 0 then 0 else t.st - 1
      keyIn := t.keyIn.advance }

/-- The Unknown step: PC moves on by 2, the timers tick, the report carries the opcode, nothing else changes (40_step_cycle.md
R126; that the timers tick is the spec's decision D13, log entry 17). The keypad sample is used up (log entry 2). -/
def Obligations.UnknownOpcodeStep : Prop :=
  ∀ s : State, s.pc.toNat ≤ 0xFFE → decode s.wordAtPc = .unknown →
    ∃ t, step s = .next t ∧ t.pc = s.pc + 2 ∧
      t.dt = (if s.dt = 0 then 0 else s.dt - 1) ∧ t.st = (if s.st = 0 then 0 else s.st - 1) ∧
      t.result = some (.unhandledOpcode s.wordAtPc) ∧ t.keyIn = s.keyIn.advance ∧ ChangesOnly [.pc, .dt, .st, .result, .keyIn] s t

/-- A fetch beyond memory aborts the step: nothing changes but the report, which carries the lowest address out of bounds
(40_step_cycle.md R121, 60_exceptions.md R224; the spec's decisions D11, D12, log entries 15, 16). -/
def Obligations.FetchBeyondMemoryAborts : Prop :=
  ∀ s : State, 0xFFE < s.pc.toNat →
    ∃ t, step s = .next t ∧
      t.result = some (.memoryOutOfBounds (if s.pc.toNat = 0xFFF then 0x1000 else s.pc)) ∧
      ChangesOnly [.result, .keyIn] s t

/-- A step always ends in a next state: it never stops the machine and never refuses (40_step_cycle.md R123, R129). -/
def Obligations.StepAlwaysAnswersANextState : Prop :=
  ∀ s : State, ∃ t, step s = .next t

/-- An aborted step changes nothing but the report; only the keypad sample is used up (40_step_cycle.md R123; the spec's
decision D12, log entry 16; the sample is log entry 2). -/
def Obligations.AbortedStepChangesNothing : Prop :=
  ∀ (s t : State) (f : Fault), step s = .next t → t.result = some f → f.aborts = true →
    t = { s with result := some f, keyIn := s.keyIn.advance }

/-- After an aborting fault every later step repeats the same fault and changes nothing (40_step_cycle.md R129, 60_exceptions.md
R229), whatever the inputs are. -/
def Obligations.AbortingFaultRepeatsForEver : Prop :=
  ∀ (s t : State) (f : Fault), step s = .next t → t.result = some f → f.aborts = true →
    ∀ n : Nat, ∃ u, Sys2Proof.core.run n t = .next u ∧ u.result = some f ∧ ChangesOnly [.keyIn] t u

/-- Exactly when a step reports which fault, with which information (60_exceptions.md R220 to R225, 40_step_cycle.md R127). The
conditions on addresses, SP and key numbers are the spec's decisions D11, D14, D15 (log entries 15, 18, 19). -/
def Obligations.FaultsAreReportedExactlyWhen : Prop :=
  ∀ s t : State, step s = .next t →
    (∀ w, t.result = some (.unhandledOpcode w) ↔
      s.pc.toNat ≤ 0xFFE ∧ w = s.wordAtPc ∧ decode s.wordAtPc = .unknown) ∧
    (t.result = some .stackOverflow ↔ s.sp = 15 ∧ ∃ nnn, s.Runs (.call nnn)) ∧
    (t.result = some .stackUnderflow ↔ s.sp = 0 ∧ s.Runs .ret) ∧
    (∀ a, t.result = some (.memoryOutOfBounds a) ↔
      (0xFFE < s.pc.toNat ∧ a = if s.pc.toNat = 0xFFF then 0x1000 else s.pc) ∨
      ∃ i, s.Runs i ∧ 0 < i.blockLength ∧ 0x1000 < s.i.toNat + i.blockLength ∧
        a = if s.i.toNat ≤ 0xFFF then 0x1000 else s.i) ∧
    (∀ k, t.result = some (.keyIndexOutOfRange k) ↔
      ∃ x, (s.Runs (.skp x) ∨ s.Runs (.sknp x)) ∧ k = s.getV x ∧ 0xF < k.toNat)

/-- Every committed step counts each nonzero timer down by exactly 1, whichever instruction ran, but for the two that write a
timer (40_step_cycle.md R124, 48_timers.md R213; the spec's decision D17, log entry 21). -/
def Obligations.CommittedStepTicksTheTimersOnce : Prop :=
  ∀ s t : State, step s = .next t → t.aborted = false →
    ((∀ x, ¬ s.Runs (.ldDtVx x)) → t.dt.toNat = s.dt.toNat - 1) ∧
    ((∀ x, ¬ s.Runs (.ldStVx x)) → t.st.toNat = s.st.toNat - 1)

/-- The timer instructions and the tick in one step: the tick acts on the value an Fx15 or Fx18 of the same step has just
written, and Fx07 reads DT before the tick (48_timers.md R213; one tick a step is the spec's decision D17, log entry 21). -/
def Obligations.TimerInstructionsMeetTheTick : Prop :=
  ∀ (s : State) (x : Reg),
    (s.Runs (.ldVxDt x) → ∃ t, step s = .next t ∧ t.getV x = s.dt ∧ t.dt.toNat = s.dt.toNat - 1) ∧
    (s.Runs (.ldDtVx x) → ∃ t, step s = .next t ∧ t.dt.toNat = (s.getV x).toNat - 1 ∧ t.st.toNat = s.st.toNat - 1) ∧
    (s.Runs (.ldStVx x) → ∃ t, step s = .next t ∧ t.st.toNat = (s.getV x).toNat - 1 ∧ t.dt.toNat = s.dt.toNat - 1)

/-- The result of a step is no state: it does not change how the next step behaves (40_step_cycle.md R125). -/
def Obligations.ResultDoesNotAffectTheNextStep : Prop :=
  ∀ (s : State) (r : Option Fault), step { s with result := r } = step s

/-- The codes and the information of the result ports (60_exceptions.md R220, 10_state.md R44; the numbers are the spec's
decision D18). -/
def Obligations.ResultPortsShowCodeAndInformation : Prop :=
  State.reset.resultCode = 0 ∧ State.reset.resultInfo = 0 ∧
  ∀ s : State, (s.result = none → s.resultCode = 0 ∧ s.resultInfo = 0) ∧
    (∀ w, s.result = some (.unhandledOpcode w) → s.resultCode = 1 ∧ s.resultInfo = w) ∧
    (s.result = some .stackOverflow → s.resultCode = 2 ∧ s.resultInfo = 0) ∧
    (s.result = some .stackUnderflow → s.resultCode = 3 ∧ s.resultInfo = 0) ∧
    (∀ a, s.result = some (.memoryOutOfBounds a) → s.resultCode = 4 ∧ s.resultInfo = a) ∧
    (∀ k, s.result = some (.keyIndexOutOfRange k) → s.resultCode = 5 ∧ s.resultInfo.toNat = k.toNat)

/-! ### Who writes what -/

/-- A register changes only in an instruction that has it as a destination, VF as flag included (10_state.md R21, R22). -/
def Obligations.RegistersChangeOnlyAsDestinations : Prop :=
  ∀ (i : Instr) (s t : State) (j : Reg), exec i s = .next t → t.getV j ≠ s.getV j → i.writesReg j = true

/-- A byte of memory changes only in a step that runs Fx33 or Fx55, and only inside the block at I (20_memory.md R60, R67). -/
def Obligations.MemoryChangesOnlyInTheStoredBlock : Prop :=
  ∀ (s t : State) (a : Nat), s.mem.wf = true → step s = .next t → t.mem.read a ≠ s.mem.read a →
    ∃ i x, (i = .ldB x ∨ i = .storeRegs x) ∧ s.Runs i ∧ s.i.toNat ≤ a ∧ a < s.i.toNat + i.blockLength ∧ a ≤ 0xFFF

/-- SP changes only in CALL and RET, by 1 and never past 0 or 15; a slot changes only in CALL, only the one above the old SP,
and slot 0 never (10_state.md R25, R26; the spec's decision D14, log entry 18). -/
def Obligations.StackChangesOnlyInCallAndRet : Prop :=
  ∀ s t : State, step s = .next t →
    (t.sp ≠ s.sp → (∃ nnn, s.Runs (.call nnn)) ∧ t.sp.toNat = s.sp.toNat + 1 ∨ s.Runs .ret ∧ t.sp.toNat + 1 = s.sp.toNat) ∧
    (∀ k, t.getSlot k ≠ s.getSlot k → (∃ nnn, s.Runs (.call nnn)) ∧ k.toNat = s.sp.toNat + 1) ∧
    t.getSlot 0 = s.getSlot 0

/-- The framebuffer changes only in 00E0 and Dxyn (10_state.md R28, 46_display.md R198). -/
def Obligations.FramebufferChangesOnlyInClsAndDrw : Prop :=
  ∀ (s t : State) (k : Nat), step s = .next t → t.fb.cell k ≠ s.fb.cell k →
    s.Runs .cls ∨ ∃ x y n, s.Runs (.drw x y n)

/-- I changes only in Annn, Fx1E and Fx29; the transfers and DRW leave it (10_state.md R23, 44_index_memory.md R186; that
they leave it is the spec's decision D10, log entry 14). -/
def Obligations.IndexRegisterWriters : Prop :=
  ∀ s t : State, step s = .next t → t.i ≠ s.i →
    (∃ nnn, s.Runs (.ldI nnn)) ∨ (∃ x, s.Runs (.addI x)) ∨ ∃ x, s.Runs (.ldF x)

/-- Only Ex9E, ExA1 and Fx0A read the keypad: every other instruction does the same whatever the samples are
(47_keypad.md R203, 40_step_cycle.md R128). -/
def Obligations.KeypadIsReadOnlyByKeyInstructions : Prop :=
  ∀ (i : Instr) (s : State) (p : InputPort 16), (∀ x, i ≠ .skp x ∧ i ≠ .sknp x ∧ i ≠ .ldVxK x) →
    exec i { s with keyIn := p } = mapNext (fun t => { t with keyIn := p }) (exec i s)

/-- Only Cxkk takes random bytes: every other instruction does the same whatever the draws are and takes none
(10_state.md R31, 45_random.md R191). -/
def Obligations.RandomByteIsTakenOnlyByRnd : Prop :=
  ∀ (i : Instr) (s : State) (p : InputPort 8), (∀ x kk, i ≠ .rnd x kk) →
    exec i { s with rndIn := p } = mapNext (fun t => { t with rndIn := p }) (exec i s)

/-! ### Reset, the loader, the invariant -/

/-- The state after reset (10_state.md R40 to R44): every register, slot and cell, the result, and every byte of memory, the
font table written out from R42. SP = 0 and memory zero but for a font are the source's. The other values are choices: PC, V,
I, DT, ST, slots and cells of the spec's decisions D4 and D5 (log entry 4), the result OK of D18 (log entry 31), the place of
the font, 0x050 to 0x09F, of D2 and its 80 bytes, PRESUMED, of D3 (log entry 5). -/
def Obligations.ResetValues : Prop :=
  State.reset.pc = 0x200 ∧ State.reset.sp = 0 ∧ State.reset.i = 0 ∧ State.reset.dt = 0 ∧ State.reset.st = 0 ∧
  State.reset.result = none ∧ (∀ x, State.reset.getV x = 0) ∧ (∀ k, State.reset.getSlot k = 0) ∧
  (∀ k, State.reset.fb.cell k = false) ∧ (∀ a, a < 0x050 ∨ 0x09F < a → State.reset.mem.read a = 0) ∧
  ∀ d < 16, ∀ j < 5, (State.reset.mem.read (0x050 + 5 * d + j)).toNat = (([
    [0xF0, 0x90, 0x90, 0x90, 0xF0], [0x20, 0x60, 0x20, 0x20, 0x70], [0xF0, 0x10, 0xF0, 0x80, 0xF0],
    [0xF0, 0x10, 0xF0, 0x10, 0xF0], [0x90, 0x90, 0xF0, 0x10, 0x10], [0xF0, 0x80, 0xF0, 0x10, 0xF0],
    [0xF0, 0x80, 0xF0, 0x90, 0xF0], [0xF0, 0x10, 0x20, 0x40, 0x40]] ++ [
    [0xF0, 0x90, 0xF0, 0x90, 0xF0], [0xF0, 0x90, 0xF0, 0x10, 0xF0], [0xF0, 0x90, 0xF0, 0x90, 0x90],
    [0xE0, 0x90, 0xE0, 0x90, 0xE0], [0xF0, 0x80, 0x80, 0x80, 0xF0], [0xE0, 0x90, 0x90, 0x90, 0xE0],
    [0xF0, 0x80, 0xF0, 0x80, 0xF0], [0xF0, 0x80, 0xF0, 0x80, 0x80]] : List (List Nat)).getD d []).getD j 0

/-- Asserting reset gives every piece of state its reset value from any state, and leaves the inputs alone (10_state.md R35,
R44, 70_reset_and_hazards.md R250; that the input streams go on is the model's choice, log entry 9). -/
def Obligations.ResetPortResetsEverything : Prop :=
  ∀ s : State, ChangesOnly [.keyIn, .rndIn] State.reset s.assertReset ∧ s.assertReset.keyIn = s.keyIn ∧
    s.assertReset.rndIn = s.rndIn

/-- The loader puts byte k of an image at 0x200 + k and writes nothing else; an image longer than 3584 bytes is refused whole
(10_state.md R37, 70_reset_and_hazards.md R252; that it is refused is the spec's decision D22, log entry 26). -/
def Obligations.LoaderPlacesTheImage : Prop :=
  ∀ (s : State) (image : List Byte), s.mem.wf = true →
    (3584 < image.length → s.loadImage image = none) ∧
    (image.length ≤ 3584 → ∃ t, s.loadImage image = some t ∧ ChangesOnly [.mem] s t ∧
      ∀ a, t.mem.read a = if 0x200 ≤ a ∧ a < 0x200 + image.length then image.getD (a - 0x200) 0 else s.mem.read a)

/-- The state after reset meets the invariant, and no return address is held: SP = 0 (10_state.md R40, R26). The bound on PC rests
on the reset PC, the spec's decision D4 (log entry 4); the canonical form of memory is the model's (log entry 6). -/
def Obligations.ResetMeetsTheInvariant : Prop := State.reset.Inv ∧ State.reset.sp = 0

/-- Every step keeps the canonical form of memory, which is the model's (log entry 6). -/
def Obligations.StepKeepsMemoryCanonical : Prop :=
  ∀ s t : State, s.mem.wf = true → step s = .next t → t.mem.wf = true

/-- Every step keeps the invariant: memory canonical, PC at most 0x10FE, every return address held at most 0xFFE
(derived from 41_control_transfer.md R140 to R143 and 42_skips.md R154; JP V0 by the spec's decision D8, log entry 12, the
stack by D14, log entry 18, falling through by D6, log entry 11; the canonical form is log entry 6). -/
def Obligations.StepKeepsTheInvariant : Prop :=
  ∀ s t : State, s.Inv → step s = .next t → t.Inv

/-- Equal contents are equal data: two canonical memories that read the same are the same (log entry 6). -/
def Obligations.CanonicalMemoriesWithEqualReadsAreEqual : Prop :=
  ∀ m n : Memory, m.wf = true → n.wf = true → (∀ a, m.read a = n.read a) → m = n

/-! ### Control transfer -/

/-- 00EE RET with SP > 0 (41_control_transfer.md R140; the spec's decision D14, log entry 18). -/
def Obligations.ReturnResult : Prop :=
  ∀ s : State, s.sp ≠ 0 → ∃ t, exec .ret s = .next t ∧ t.pc = s.getSlot s.sp + 2 ∧ t.sp.toNat + 1 = s.sp.toNat ∧
    ChangesOnly [.pc, .sp] s t

/-- 1nnn JP (R141): every word with opcode[15:12] = 1 is this instruction; it sets PC = nnn exactly, for every nnn, and nothing
else changes. -/
def Obligations.JumpResult : Prop :=
  (∀ w : Opcode, w.op = 0x1 → decode w = .instr (.jp w.nnn)) ∧
  ∀ (nnn : BitVec 12) (s : State), ∃ t, exec (.jp nnn) s = .next t ∧ t.pc.toNat = nnn.toNat ∧ ChangesOnly [.pc] s t

/-- 2nnn CALL with SP < 15 (R142): SP up by 1, the address of the CALL in the slot the new SP names, every other slot as
before, PC = nnn (the spec's decision D14, log entry 18). -/
def Obligations.CallResult : Prop :=
  ∀ (nnn : BitVec 12) (s : State), s.sp ≠ 15 → ∃ t, exec (.call nnn) s = .next t ∧ t.sp.toNat = s.sp.toNat + 1 ∧
    t.pc.toNat = nnn.toNat ∧ (∀ k, t.getSlot k = if k.toNat = s.sp.toNat + 1 then s.pc else s.getSlot k) ∧
    ChangesOnly [.pc, .sp, .stack] s t

/-- A RET after a CALL, at any later state that still holds the same stack, returns to the address after the CALL and gives
SP back (R140, R142; the spec's decision D14, log entry 18). -/
def Obligations.ReturnUndoesCall : Prop :=
  ∀ (nnn : BitVec 12) (s t t' : State), s.sp ≠ 15 → exec (.call nnn) s = .next t → t'.sp = t.sp → t'.stack = t.stack →
    ∃ u, exec .ret t' = .next u ∧ u.pc = s.pc + 2 ∧ u.sp = s.sp

/-- Bnnn JP V0 (R143): a 16-bit sum that is not cut to 12 bits (the spec's decision D8, log entry 12); VF is not written. -/
def Obligations.JumpPlusV0Result : Prop :=
  ∀ (nnn : BitVec 12) (s : State), ∃ t, exec (.jpV0 nnn) s = .next t ∧ t.pc.toNat = nnn.toNat + (s.getV 0).toNat ∧
    ChangesOnly [.pc] s t

/-- CALL with SP = 15 and RET with SP = 0 take their fault, and nothing else happens (60_exceptions.md R222, R223; the
spec's decisions D12, D14, log entries 16, 18). -/
def Obligations.StackFaults : Prop :=
  ∀ s : State,
    (s.sp = 15 → ∀ nnn, exec (.call nnn) s = .next { s with result := some .stackOverflow }) ∧
    (s.sp = 0 → exec .ret s = .next { s with result := some .stackUnderflow })

/-! ### Skips -/

/-- 3xkk SE and 4xkk SNE (42_skips.md R150, R151): their words; each completes, skips on its condition, and writes no
register. -/
def Obligations.SkipOnImmediate : Prop :=
  (∀ w : Opcode, w.op = 0x3 → decode w = .instr (.seImm w.x w.kk)) ∧
  (∀ w : Opcode, w.op = 0x4 → decode w = .instr (.sneImm w.x w.kk)) ∧
  ∀ (x : Reg) (kk : Byte) (s : State),
    (∃ t, exec (.seImm x kk) s = .next t ∧ t.pc = (if s.getV x = kk then s.pc + 4 else s.pc + 2) ∧ ChangesOnly [.pc] s t) ∧
    (∃ t, exec (.sneImm x kk) s = .next t ∧ t.pc = (if s.getV x ≠ kk then s.pc + 4 else s.pc + 2) ∧ ChangesOnly [.pc] s t)

/-- 5xy0 SE and 9xy0 SNE (42_skips.md R152, R153): their words; each completes, skips on its condition, and writes no
register. That 5xyn and 9xyn with n other than 0 are Unknown is the spec's decision D24 (log entry 22). -/
def Obligations.SkipOnRegister : Prop :=
  (∀ w : Opcode, w.op = 0x5 → decode w = if w.n = 0 then .instr (.seReg w.x w.y) else .unknown) ∧
  (∀ w : Opcode, w.op = 0x9 → decode w = if w.n = 0 then .instr (.sneReg w.x w.y) else .unknown) ∧
  ∀ (x y : Reg) (s : State),
    (∃ t, exec (.seReg x y) s = .next t ∧ t.pc = (if s.getV x = s.getV y then s.pc + 4 else s.pc + 2) ∧
      ChangesOnly [.pc] s t) ∧
    (∃ t, exec (.sneReg x y) s = .next t ∧ t.pc = (if s.getV x ≠ s.getV y then s.pc + 4 else s.pc + 2) ∧
      ChangesOnly [.pc] s t)

/-! ### Loads and the ALU -/

/-- 6xkk LD and 7xkk ADD (43_alu.md R160, R161): their words, and what they do; the sum wraps modulo 256 and sets no flag. -/
def Obligations.LoadAndAddImmediate : Prop :=
  (∀ w : Opcode, w.op = 0x6 → decode w = .instr (.ldImm w.x w.kk)) ∧
  (∀ w : Opcode, w.op = 0x7 → decode w = .instr (.addImm w.x w.kk)) ∧
  ∀ (x : Reg) (kk : Byte) (s : State),
    (∃ t, exec (.ldImm x kk) s = .next t ∧ (∀ j, t.getV j = if j = x then kk else s.getV j) ∧ t.pc = s.pc + 2 ∧
      ChangesOnly [.regs, .pc] s t) ∧
    (∃ t, exec (.addImm x kk) s = .next t ∧
      (∀ j, (t.getV j).toNat = if j = x then ((s.getV x).toNat + kk.toNat) % 256 else (s.getV j).toNat) ∧
      t.pc = s.pc + 2 ∧ ChangesOnly [.regs, .pc] s t)

/-- 8xy0 LD, 8xy1 OR, 8xy2 AND, 8xy3 XOR (43_alu.md R162 to R165), bit by bit; none writes VF as a flag. PC + 2 is the spec's
decision D6 (log entry 11). -/
def Obligations.CopyAndBitwiseResults : Prop :=
  ∀ (x y : Reg) (s : State),
    (∃ t, exec (.ldReg x y) s = .next t ∧ (∀ j, t.getV j = if j = x then s.getV y else s.getV j) ∧ t.pc = s.pc + 2 ∧
      ChangesOnly [.regs, .pc] s t) ∧
    (∃ t, exec (.orReg x y) s = .next t ∧ (∀ j k, (t.getV j).getLsbD k =
        if j = x then (s.getV x).getLsbD k || (s.getV y).getLsbD k else (s.getV j).getLsbD k) ∧ t.pc = s.pc + 2 ∧
      ChangesOnly [.regs, .pc] s t) ∧
    (∃ t, exec (.andReg x y) s = .next t ∧ (∀ j k, (t.getV j).getLsbD k =
        if j = x then (s.getV x).getLsbD k && (s.getV y).getLsbD k else (s.getV j).getLsbD k) ∧ t.pc = s.pc + 2 ∧
      ChangesOnly [.regs, .pc] s t) ∧
    (∃ t, exec (.xorReg x y) s = .next t ∧ (∀ j k, (t.getV j).getLsbD k =
        if j = x then ((s.getV x).getLsbD k != (s.getV y).getLsbD k) else (s.getV j).getLsbD k) ∧ t.pc = s.pc + 2 ∧
      ChangesOnly [.regs, .pc] s t)

/-- 8xy4 ADD (43_alu.md R166, R172): the sum modulo 256, VF 1 exactly when the sum is above 255. That VF holds the flag when
x = 0xF is the spec's decision D7 (log entry 10), PC + 2 its decision D6 (log entry 11). -/
def Obligations.AddRegisterResultAndCarry : Prop :=
  ∀ (x y : Reg) (s : State), ∃ t, exec (.addReg x y) s = .next t ∧
    (∀ j, (t.getV j).toNat =
      if j = 15 then (if (s.getV x).toNat + (s.getV y).toNat > 255 then 1 else 0)
      else if j = x then ((s.getV x).toNat + (s.getV y).toNat) % 256 else (s.getV j).toNat) ∧
    t.pc = s.pc + 2 ∧ ChangesOnly [.regs, .pc] s t

/-- 8xy5 SUB (43_alu.md R167): the difference modulo 256, VF 1 exactly when Vx > Vy, so 0 for equal operands
(90_conflicts.md C4, log entry 25). Decisions D6 and D7 as for 8xy4. -/
def Obligations.SubResultAndFlag : Prop :=
  ∀ (x y : Reg) (s : State), ∃ t, exec (.sub x y) s = .next t ∧
    (∀ j, (t.getV j).toNat =
      if j = 15 then (if (s.getV x).toNat > (s.getV y).toNat then 1 else 0)
      else if j = x then ((s.getV x).toNat + 256 - (s.getV y).toNat) % 256 else (s.getV j).toNat) ∧
    t.pc = s.pc + 2 ∧ ChangesOnly [.regs, .pc] s t

/-- 8xy7 SUBN (43_alu.md R169): Vy minus Vx modulo 256, VF 1 exactly when Vy >= Vx, so 1 for equal operands. Decisions D6
and D7 as for 8xy4. -/
def Obligations.SubnResultAndFlag : Prop :=
  ∀ (x y : Reg) (s : State), ∃ t, exec (.subn x y) s = .next t ∧
    (∀ j, (t.getV j).toNat =
      if j = 15 then (if (s.getV y).toNat ≥ (s.getV x).toNat then 1 else 0)
      else if j = x then ((s.getV y).toNat + 256 - (s.getV x).toNat) % 256 else (s.getV j).toNat) ∧
    t.pc = s.pc + 2 ∧ ChangesOnly [.regs, .pc] s t

/-- 8xy6 SHR and 8xyE SHL (43_alu.md R168, R170): by one place, the bit shifted out in VF, for every value of the ignored y
field (30_encoding.md R98). Decisions D6 and D7 as for 8xy4. -/
def Obligations.ShiftResultsAndFlag : Prop :=
  ∀ (x y : Reg) (s : State),
    (∃ t, exec (.shr x y) s = .next t ∧
      (∀ j, (t.getV j).toNat =
        if j = 15 then (s.getV x).toNat % 2 else if j = x then (s.getV x).toNat / 2 else (s.getV j).toNat) ∧
      t.pc = s.pc + 2 ∧ ChangesOnly [.regs, .pc] s t) ∧
    (∃ t, exec (.shl x y) s = .next t ∧
      (∀ j, (t.getV j).toNat =
        if j = 15 then (s.getV x).toNat / 128 else if j = x then 2 * (s.getV x).toNat % 256 else (s.getV j).toNat) ∧
      t.pc = s.pc + 2 ∧ ChangesOnly [.regs, .pc] s t)

/-! ### The index register and memory -/

/-- Annn LD I, Fx1E ADD I, Fx29 LD F (44_index_memory.md R180 to R182): none faults, none writes VF. PC + 2, the font base and
the unmasked digit are the spec's decisions D6, D2, D9 (log entries 11, 5, 13). -/
def Obligations.IndexRegisterResults : Prop :=
  ∀ s : State,
    (∀ nnn, ∃ t, exec (.ldI nnn) s = .next t ∧ t.i.toNat = nnn.toNat ∧ t.pc = s.pc + 2 ∧ ChangesOnly [.index, .pc] s t) ∧
    (∀ x, ∃ t, exec (.addI x) s = .next t ∧ t.i.toNat = (s.i.toNat + (s.getV x).toNat) % 65536 ∧ t.pc = s.pc + 2 ∧
      ChangesOnly [.index, .pc] s t) ∧
    (∀ x, ∃ t, exec (.ldF x) s = .next t ∧ t.i.toNat = 0x50 + 5 * (s.getV x).toNat ∧ t.pc = s.pc + 2 ∧
      ChangesOnly [.index, .pc] s t)

/-- Fx33 LD B in bounds (44_index_memory.md R183): hundreds, tens and ones at I, I+1, I+2, every other byte as before, I kept.
PC + 2, the bounds and I kept are the spec's decisions D6, D11, D10 (log entries 11, 15, 14). -/
def Obligations.StoreDecimalDigits : Prop :=
  ∀ (x : Reg) (s : State), s.mem.wf = true → s.i.toNat + 2 ≤ 0xFFF → ∃ t, exec (.ldB x) s = .next t ∧
    (t.mem.read s.i.toNat).toNat = (s.getV x).toNat / 100 ∧
    (t.mem.read (s.i.toNat + 1)).toNat = (s.getV x).toNat / 10 % 10 ∧
    (t.mem.read (s.i.toNat + 2)).toNat = (s.getV x).toNat % 10 ∧
    (∀ a, a < s.i.toNat ∨ s.i.toNat + 2 < a → t.mem.read a = s.mem.read a) ∧
    t.pc = s.pc + 2 ∧ ChangesOnly [.mem, .pc] s t

/-- Fx55 LD [I] in bounds (44_index_memory.md R184): V0 to Vx at I to I+x, every other byte as before, I and the registers
kept. Decisions as for Fx33. -/
def Obligations.StoreRegisterBlock : Prop :=
  ∀ (x : Reg) (s : State), s.mem.wf = true → s.i.toNat + x.val ≤ 0xFFF → ∃ t, exec (.storeRegs x) s = .next t ∧
    (∀ j : Reg, j ≤ x → t.mem.read (s.i.toNat + j.val) = s.getV j) ∧
    (∀ a, a < s.i.toNat ∨ s.i.toNat + x.val < a → t.mem.read a = s.mem.read a) ∧
    t.pc = s.pc + 2 ∧ ChangesOnly [.mem, .pc] s t

/-- Fx65 LD Vx, [I] in bounds (44_index_memory.md R185): V0 to Vx take the bytes at I to I+x, the other registers, memory and I
stay. Decisions as for Fx33. -/
def Obligations.LoadRegisterBlock : Prop :=
  ∀ (x : Reg) (s : State), s.i.toNat + x.val ≤ 0xFFF → ∃ t, exec (.loadRegs x) s = .next t ∧
    (∀ j : Reg, t.getV j = if j ≤ x then s.mem.read (s.i.toNat + j.val) else s.getV j) ∧
    t.pc = s.pc + 2 ∧ ChangesOnly [.regs, .pc] s t

/-- What Fx55 stored, Fx65 loads back: storing V0 to Vx and then loading them with the same I leaves every register as it was
(44_index_memory.md R184, R185, 20_memory.md R68 (3)). The load reads the block that was stored because Fx55 leaves I, which is
the spec's decision D10 (R186, log entry 14); the bounds are its decision D11 (log entry 15). -/
def Obligations.LoadAfterStoreGivesTheRegistersBack : Prop :=
  ∀ (x : Reg) (s t u : State), s.mem.wf = true → s.i.toNat + x.val ≤ 0xFFF → exec (.storeRegs x) s = .next t →
    exec (.loadRegs x) t = .next u → ∀ j, u.getV j = s.getV j

/-- A store is seen by the very next fetch: when Fx55 writes the two bytes at the address after itself, the next step fetches
the word V0, V1, high byte first (20_memory.md R71, R64). That the next fetch is at the address after Fx55 is the spec's
decision D6 (PC + 2, log entry 11); the bounds are its decision D11 (log entry 15). -/
def Obligations.StoreIsSeenByTheNextFetch : Prop :=
  ∀ (x : Reg) (s t : State), s.mem.wf = true → 1 ≤ x.val → s.i.toNat + x.val ≤ 0xFFF → s.i = s.pc + 2 →
    s.Runs (.storeRegs x) → step s = .next t → t.fetch = .ok (mergeBytes (s.getV 0) (s.getV 1))

/-- Dxyn with n > 0, Fx33, Fx55 and Fx65 out of bounds take MemoryOutOfBounds with the lowest address out of bounds, and
nothing else happens (44_index_memory.md R187, 60_exceptions.md R224; the spec's decisions D11, D12, log entries 15, 16). -/
def Obligations.BlockFaults : Prop :=
  ∀ (i : Instr) (s : State), 0 < i.blockLength → 0xFFF < s.i.toNat + i.blockLength - 1 →
    exec i s = .next { s with result := some (.memoryOutOfBounds (if s.i.toNat ≤ 0xFFF then 0x1000 else s.i)) }

/-! ### Random -/

/-- Cxkk RND (45_random.md R190, R191): Vx is the draw ANDed with kk for every value of the draw, exactly one draw is taken,
VF is not written as a flag. PC + 2 is the spec's decision D6 (log entry 11). -/
def Obligations.RandomByteResult : Prop :=
  ∀ (x : Reg) (kk draw : Byte) (rest : List Byte) (taken : Nat) (s : State), s.rndIn = ⟨draw :: rest, taken⟩ →
    ∃ t, exec (.rnd x kk) s = .next t ∧ (∀ j, t.getV j = if j = x then draw &&& kk else s.getV j) ∧
      t.rndIn = ⟨rest, taken + 1⟩ ∧ t.pc = s.pc + 2 ∧ ChangesOnly [.regs, .pc, .rndIn] s t

/-- Cxkk on any state, the draw being the free value or one the host has settled: Vx is the draw ANDed with kk, so every bit of
Vx where kk has a 0 is 0, and exactly one draw is taken, the first of the stream (45_random.md R190, R191). The draw `s.rnd` is
the model's stream of inputs (decision D21, log entry 3); PC + 2 is the spec's decision D6 (log entry 11). -/
def Obligations.RandomByteIsMasked : Prop :=
  ∀ (x : Reg) (kk : Byte) (s : State), ∃ t, exec (.rnd x kk) s = .next t ∧
    t.getV x = s.rnd &&& kk ∧ (∀ k, kk.getLsbD k = false → (t.getV x).getLsbD k = false) ∧ (∀ j, j ≠ x → t.getV j = s.getV j) ∧
    t.rndIn = s.rndIn.advance ∧ t.rndIn.taken = s.rndIn.taken + 1 ∧ t.pc = s.pc + 2 ∧ ChangesOnly [.regs, .pc, .rndIn] s t

/-! ### Display -/

/-- 00E0 CLS (46_display.md R195): its word is exactly 0x00E0; every cell 0, VF and everything else as before. -/
def Obligations.ClearScreenResult : Prop :=
  (∀ w : Opcode, decode w = .instr .cls ↔ w = 0x00E0) ∧
  ∀ s : State, ∃ t, exec .cls s = .next t ∧ (∀ k, t.fb.cell k = false) ∧ t.pc = s.pc + 2 ∧ ChangesOnly [.fb, .pc] s t

/-- Dxyn DRW, pixel by pixel (46_display.md R196, R197): with n = 0 or the sprite in bounds, a cell flips exactly when a set
bit of the sprite falls on it, coordinates wrapped per pixel; VF is 1 exactly when some cell went from 1 to 0; no other
register, no memory byte and not I changes. The loops of the model are thereby equal to the union over the whole sprite. PC + 2,
the bounds, n = 0, VF last and I kept (44_index_memory.md R186) are the spec's decisions D6, D11, D25, D7, D10 (log entries 11,
15, 23, 10, 14). -/
def Obligations.DrawSpriteResult : Prop :=
  ∀ (x y : Reg) (n : Fin 16) (s : State), (n.val = 0 ∨ s.i.toNat + n.val - 1 ≤ 0xFFF) →
    ∃ t, exec (.drw x y n) s = .next t ∧
      (∀ px < 64, ∀ py < 32, t.fb.cell (px + 64 * py) = true ↔
        (s.fb.cell (px + 64 * py) = true ∧ ¬ s.SpriteLights (s.getV x) (s.getV y) n.val px py) ∨
        (s.fb.cell (px + 64 * py) = false ∧ s.SpriteLights (s.getV x) (s.getV y) n.val px py)) ∧
      (t.getV 15 = 1 ↔ ∃ px < 64, ∃ py < 32,
        s.fb.cell (px + 64 * py) = true ∧ t.fb.cell (px + 64 * py) = false) ∧
      (t.getV 15 = 0 ∨ t.getV 15 = 1) ∧ (∀ j, j ≠ 15 → t.getV j = s.getV j) ∧
      t.pc = s.pc + 2 ∧ ChangesOnly [.fb, .regs, .pc] s t

/-- Drawing the same sprite twice at the same place restores the framebuffer, and on a clear one the second draw reports a
collision exactly when the sprite has a set bit (46_display.md R196 (d); the clear framebuffer is the reading of log entry 30). The second draw reads the same sprite because
Dxyn leaves I, which is the spec's decision D10 (log entry 14); the bounds, n = 0 and VF last are its decisions D11, D25, D7 (log
entries 15, 23, 10). -/
def Obligations.DrawingTwiceRestoresTheScreen : Prop :=
  ∀ (x y : Reg) (n : Fin 16) (s t u : State), x ≠ 15 → y ≠ 15 → (n.val = 0 ∨ s.i.toNat + n.val - 1 ≤ 0xFFF) →
    exec (.drw x y n) s = .next t → exec (.drw x y n) t = .next u →
      (∀ k < 2048, u.fb.cell k = s.fb.cell k) ∧
      ((∀ k < 2048, s.fb.cell k = false) →
        (u.getV 15 = 1 ↔ ∃ row < n.val, s.mem.read (s.i.toNat + row) ≠ 0))

/-- The framebuffer read port exports 2048 cells, row-major: element x + y*64 is the cell of column x and row y
(10_state.md R36, 46_display.md R197). -/
def Obligations.FramebufferPortIsRowMajor : Prop :=
  ∀ s : State, s.framebufferPort.length = 2048 ∧
    ∀ px < 64, ∀ py < 32, s.framebufferPort[px + 64 * py]? = some (s.fb.cell (px + 64 * py))

/-! ### Keypad -/

/-- Ex9E SKP and ExA1 SKNP with Vx <= 0xF (47_keypad.md R200, R201): skip on the level of key Vx in this step's sample, write
no register; the two are complements. -/
def Obligations.SkipOnKey : Prop :=
  ∀ (x : Reg) (s : State), (s.getV x).toNat ≤ 0xF →
    (∃ t, exec (.skp x) s = .next t ∧
      t.pc = (if s.key.getLsbD (s.getV x).toNat = true then s.pc + 4 else s.pc + 2) ∧ ChangesOnly [.pc] s t) ∧
    (∃ t, exec (.sknp x) s = .next t ∧
      t.pc = (if s.key.getLsbD (s.getV x).toNat = true then s.pc + 2 else s.pc + 4) ∧ ChangesOnly [.pc] s t)

/-- SKP and SKNP with Vx > 0xF take KeyIndexOutOfRange with the value of Vx, and nothing else happens (60_exceptions.md R225;
the spec's decisions D12, D15, log entries 16, 19). -/
def Obligations.KeyIndexFaults : Prop :=
  ∀ (x : Reg) (s : State), 0xF < (s.getV x).toNat →
    exec (.skp x) s = .next { s with result := some (.keyIndexOutOfRange (s.getV x)) } ∧
    exec (.sknp x) s = .next { s with result := some (.keyIndexOutOfRange (s.getV x)) }

/-- Fx0A LD Vx, K (47_keypad.md R202): with a key down in this step's sample, the lowest one's number is loaded and PC moves
on; with none, nothing changes, so the next step runs the same instruction again. The lowest key is the spec's decision
D16 (log entry 20). -/
def Obligations.WaitForKeyResult : Prop :=
  ∀ (x : Reg) (s : State),
    (s.key = 0 → exec (.ldVxK x) s = .next s) ∧
    (∀ k < 16, s.key.getLsbD k = true → (∀ j < k, s.key.getLsbD j = false) →
      ∃ t, exec (.ldVxK x) s = .next t ∧ (t.getV x).toNat = k ∧ (∀ j, j ≠ x → t.getV j = s.getV j) ∧
        t.pc = s.pc + 2 ∧ ChangesOnly [.regs, .pc] s t)

/-! ### Timers -/

/-- Fx07 LD Vx, DT; Fx15 LD DT, Vx; Fx18 LD ST, Vx (48_timers.md R210 to R212), before the tick of the step. PC + 2 is the
spec's decision D6 (log entry 11). -/
def Obligations.TimerInstructionResults : Prop :=
  ∀ (x : Reg) (s : State),
    (∃ t, exec (.ldVxDt x) s = .next t ∧ (∀ j, t.getV j = if j = x then s.dt else s.getV j) ∧ t.pc = s.pc + 2 ∧
      ChangesOnly [.regs, .pc] s t) ∧
    (∃ t, exec (.ldDtVx x) s = .next t ∧ t.dt = s.getV x ∧ t.pc = s.pc + 2 ∧ ChangesOnly [.dt, .pc] s t) ∧
    (∃ t, exec (.ldStVx x) s = .next t ∧ t.st = s.getV x ∧ t.pc = s.pc + 2 ∧ ChangesOnly [.st, .pc] s t)
end

