-- ==== Sys2Proof/Laws/Decode.lean ====
section
/-! SUPPORT. The fields of an encoded word, one lemma per format and field (30_encoding.md R91, R92), and the two bytes of a word
(20_memory.md R64). -/

namespace Sys2Proof

@[simp] theorem regOfBits_bitsOfReg (x : Reg) : regOfBits (bitsOfReg x) = x := by
  apply Fin.ext; simp [regOfBits, bitsOfReg]

@[simp] theorem bitsOfReg_regOfBits (b : BitVec 4) : bitsOfReg (regOfBits b) = b := by
  apply BitVec.eq_of_toNat_eq; simp [regOfBits, bitsOfReg]

/-- A field that lies in the low part of a concatenation. -/
theorem extractLsb'_append_low {n m : Nat} (a : BitVec n) (b : BitVec m) (i len : Nat) (h : i + len ≤ m) :
    (a ++ b).extractLsb' i len = b.extractLsb' i len := by
  apply BitVec.eq_of_getLsbD_eq
  intro k hk
  simp only [BitVec.getLsbD_extractLsb', BitVec.getLsbD_append, hk, decide_true, Bool.true_and]
  rw [if_pos (by omega)]

/-- A field that lies in the high part of a concatenation. -/
theorem extractLsb'_append_high {n m : Nat} (a : BitVec n) (b : BitVec m) (i len : Nat) (h : m ≤ i) :
    (a ++ b).extractLsb' i len = a.extractLsb' (i - m) len := by
  apply BitVec.eq_of_getLsbD_eq
  intro k hk
  simp only [BitVec.getLsbD_extractLsb', BitVec.getLsbD_append, hk, decide_true, Bool.true_and]
  rw [if_neg (by omega), Nat.sub_add_comm h]

theorem extractLsb'_all {n : Nat} (a : BitVec n) : a.extractLsb' 0 n = a := by
  apply BitVec.eq_of_getLsbD_eq
  intro k hk; simp [hk]

@[simp] theorem encodeNNN_op (op : BitVec 4) (nnn : BitVec 12) : (encodeNNN op nnn).op = op := by
  unfold encodeNNN Opcode.op
  rw [extractLsb'_append_high _ _ _ _ (by omega)]; exact extractLsb'_all op

@[simp] theorem encodeNNN_nnn (op : BitVec 4) (nnn : BitVec 12) : (encodeNNN op nnn).nnn = nnn := by
  unfold encodeNNN Opcode.nnn
  rw [extractLsb'_append_low _ _ _ _ (by omega)]; exact extractLsb'_all nnn

@[simp] theorem encodeXKK_op (op : BitVec 4) (x : Reg) (kk : Byte) : (encodeXKK op x kk).op = op := by
  unfold encodeXKK Opcode.op
  rw [extractLsb'_append_high _ _ _ _ (by omega), extractLsb'_append_high _ _ _ _ (by omega)]; exact extractLsb'_all op

@[simp] theorem encodeXKK_x (op : BitVec 4) (x : Reg) (kk : Byte) : (encodeXKK op x kk).x = x := by
  unfold encodeXKK Opcode.x
  rw [extractLsb'_append_high _ _ _ _ (by omega), extractLsb'_append_low _ _ _ _ (by omega)]
  exact (congrArg regOfBits (extractLsb'_all (bitsOfReg x))).trans (regOfBits_bitsOfReg x)

@[simp] theorem encodeXKK_kk (op : BitVec 4) (x : Reg) (kk : Byte) : (encodeXKK op x kk).kk = kk := by
  unfold encodeXKK Opcode.kk
  rw [extractLsb'_append_low _ _ _ _ (by omega)]; exact extractLsb'_all kk

@[simp] theorem encodeXYN_op (op : BitVec 4) (x y : Reg) (n : BitVec 4) : (encodeXYN op x y n).op = op := by
  unfold encodeXYN Opcode.op
  rw [extractLsb'_append_high _ _ _ _ (by omega), extractLsb'_append_high _ _ _ _ (by omega)]; exact extractLsb'_all op

@[simp] theorem encodeXYN_x (op : BitVec 4) (x y : Reg) (n : BitVec 4) : (encodeXYN op x y n).x = x := by
  unfold encodeXYN Opcode.x
  rw [extractLsb'_append_high _ _ _ _ (by omega), extractLsb'_append_low _ _ _ _ (by omega)]
  exact (congrArg regOfBits (extractLsb'_all (bitsOfReg x))).trans (regOfBits_bitsOfReg x)

@[simp] theorem encodeXYN_y (op : BitVec 4) (x y : Reg) (n : BitVec 4) : (encodeXYN op x y n).y = y := by
  unfold encodeXYN Opcode.y
  rw [extractLsb'_append_low _ _ _ _ (by omega), extractLsb'_append_high _ _ _ _ (by omega)]
  exact (congrArg regOfBits (extractLsb'_all (bitsOfReg y))).trans (regOfBits_bitsOfReg y)

@[simp] theorem encodeXYN_n (op : BitVec 4) (x y : Reg) (n : BitVec 4) : (encodeXYN op x y n).n = n := by
  unfold encodeXYN Opcode.n
  rw [extractLsb'_append_low _ _ _ _ (by omega), extractLsb'_append_low _ _ _ _ (by omega)]; exact extractLsb'_all n

/-- A word is put together again from the fields of format NNN. -/
theorem encodeNNN_fields (w : Opcode) : encodeNNN w.op w.nnn = w := by
  apply BitVec.eq_of_getLsbD_eq
  intro k hk
  simp only [encodeNNN, Opcode.op, Opcode.nnn, BitVec.getLsbD_append, BitVec.getLsbD_extractLsb']
  by_cases h : k < 12
  · simp [h]
  · have : 12 + (k - 12) = k := by omega
    simp [h, this]; omega

/-- A word is put together again from the fields of format XKK. -/
theorem encodeXKK_fields (w : Opcode) : encodeXKK w.op w.x w.kk = w := by
  apply BitVec.eq_of_getLsbD_eq
  intro k hk
  simp only [encodeXKK, Opcode.op, Opcode.x, Opcode.kk, BitVec.getLsbD_append, BitVec.getLsbD_extractLsb',
    bitsOfReg_regOfBits]
  by_cases h : k < 8
  · simp [h]
  · by_cases h2 : k < 12
    · have : 8 + (k - 8) = k := by omega
      have h3 : k - 8 < 4 := by omega
      simp [h, h3, this]
    · have h3 : ¬ k - 8 < 4 := by omega
      have : 12 + (k - 8 - 4) = k := by omega
      simp [h, h3, this]; omega

/-- A word is put together again from the fields of format XYN. -/
theorem encodeXYN_fields (w : Opcode) : encodeXYN w.op w.x w.y w.n = w := by
  apply BitVec.eq_of_getLsbD_eq
  intro k hk
  simp only [encodeXYN, Opcode.op, Opcode.x, Opcode.y, Opcode.n, BitVec.getLsbD_append,
    BitVec.getLsbD_extractLsb', bitsOfReg_regOfBits]
  by_cases h : k < 4
  · have : k < 8 := by omega
    simp [h, this]
  · by_cases h1 : k < 8
    · have : 4 + (k - 4) = k := by omega
      have h3 : k - 4 < 4 := by omega
      simp [h, h1, h3, this]
    · by_cases h2 : k < 12
      · have : 8 + (k - 8) = k := by omega
        have h3 : k - 8 < 4 := by omega
        simp [h1, h3, this]
      · have h3 : ¬ k - 8 < 4 := by omega
        have : 12 + (k - 8 - 4) = k := by omega
        simp [h1, h3, this]; omega

/-- A word is its two bytes, high byte first. -/
@[simp] theorem mergeBytes_split (w : Opcode) : mergeBytes (highByte w) (lowByte w) = w := by
  apply BitVec.eq_of_getLsbD_eq
  intro k hk
  simp only [mergeBytes, highByte, lowByte, BitVec.getLsbD_append, BitVec.getLsbD_extractLsb']
  by_cases h : k < 8
  · simp [h]
  · have : 8 + (k - 8) = k := by omega
    simp [h, this]; omega

end Sys2Proof
end

