-- ==== Sys2Proof/Laws/State.lean ====
section
/-! SUPPORT. One lemma per field per update of the state, true by rfl, so that no later proof unfolds a record update. -/

namespace Sys2Proof.Machine

@[simp] theorem State.setV_v (s : State) (x : Reg) (b : Byte) : (s.setV x b).v = s.v.set x.val b := rfl
@[simp] theorem State.setV_i (s : State) (x : Reg) (b : Byte) : (s.setV x b).i = s.i := rfl
@[simp] theorem State.setV_pc (s : State) (x : Reg) (b : Byte) : (s.setV x b).pc = s.pc := rfl
@[simp] theorem State.setV_stack (s : State) (x : Reg) (b : Byte) : (s.setV x b).stack = s.stack := rfl
@[simp] theorem State.setV_sp (s : State) (x : Reg) (b : Byte) : (s.setV x b).sp = s.sp := rfl
@[simp] theorem State.setV_dt (s : State) (x : Reg) (b : Byte) : (s.setV x b).dt = s.dt := rfl
@[simp] theorem State.setV_st (s : State) (x : Reg) (b : Byte) : (s.setV x b).st = s.st := rfl
@[simp] theorem State.setV_fb (s : State) (x : Reg) (b : Byte) : (s.setV x b).fb = s.fb := rfl
@[simp] theorem State.setV_mem (s : State) (x : Reg) (b : Byte) : (s.setV x b).mem = s.mem := rfl
@[simp] theorem State.setV_result (s : State) (x : Reg) (b : Byte) : (s.setV x b).result = s.result := rfl
@[simp] theorem State.setV_keyIn (s : State) (x : Reg) (b : Byte) : (s.setV x b).keyIn = s.keyIn := rfl
@[simp] theorem State.setV_rndIn (s : State) (x : Reg) (b : Byte) : (s.setV x b).rndIn = s.rndIn := rfl
@[simp] theorem State.setV_getSlot (s : State) (x : Reg) (b : Byte) (j : BitVec 4) : (s.setV x b).getSlot j = s.getSlot j := rfl

@[simp] theorem State.setSlot_v (s : State) (k : BitVec 4) (a : Addr) : (s.setSlot k a).v = s.v := rfl
@[simp] theorem State.setSlot_i (s : State) (k : BitVec 4) (a : Addr) : (s.setSlot k a).i = s.i := rfl
@[simp] theorem State.setSlot_pc (s : State) (k : BitVec 4) (a : Addr) : (s.setSlot k a).pc = s.pc := rfl
@[simp] theorem State.setSlot_stack (s : State) (k : BitVec 4) (a : Addr) : (s.setSlot k a).stack = s.stack.set k.toNat a k.isLt := rfl
@[simp] theorem State.setSlot_sp (s : State) (k : BitVec 4) (a : Addr) : (s.setSlot k a).sp = s.sp := rfl
@[simp] theorem State.setSlot_dt (s : State) (k : BitVec 4) (a : Addr) : (s.setSlot k a).dt = s.dt := rfl
@[simp] theorem State.setSlot_st (s : State) (k : BitVec 4) (a : Addr) : (s.setSlot k a).st = s.st := rfl
@[simp] theorem State.setSlot_fb (s : State) (k : BitVec 4) (a : Addr) : (s.setSlot k a).fb = s.fb := rfl
@[simp] theorem State.setSlot_mem (s : State) (k : BitVec 4) (a : Addr) : (s.setSlot k a).mem = s.mem := rfl
@[simp] theorem State.setSlot_result (s : State) (k : BitVec 4) (a : Addr) : (s.setSlot k a).result = s.result := rfl
@[simp] theorem State.setSlot_keyIn (s : State) (k : BitVec 4) (a : Addr) : (s.setSlot k a).keyIn = s.keyIn := rfl
@[simp] theorem State.setSlot_rndIn (s : State) (k : BitVec 4) (a : Addr) : (s.setSlot k a).rndIn = s.rndIn := rfl
@[simp] theorem State.setSlot_getV (s : State) (k : BitVec 4) (a : Addr) (y : Reg) : (s.setSlot k a).getV y = s.getV y := rfl

@[simp] theorem State.fallThrough_v (s : State) : (s.fallThrough).v = s.v := rfl
@[simp] theorem State.fallThrough_i (s : State) : (s.fallThrough).i = s.i := rfl
@[simp] theorem State.fallThrough_pc (s : State) : (s.fallThrough).pc = s.pc + 2 := rfl
@[simp] theorem State.fallThrough_stack (s : State) : (s.fallThrough).stack = s.stack := rfl
@[simp] theorem State.fallThrough_sp (s : State) : (s.fallThrough).sp = s.sp := rfl
@[simp] theorem State.fallThrough_dt (s : State) : (s.fallThrough).dt = s.dt := rfl
@[simp] theorem State.fallThrough_st (s : State) : (s.fallThrough).st = s.st := rfl
@[simp] theorem State.fallThrough_fb (s : State) : (s.fallThrough).fb = s.fb := rfl
@[simp] theorem State.fallThrough_mem (s : State) : (s.fallThrough).mem = s.mem := rfl
@[simp] theorem State.fallThrough_result (s : State) : (s.fallThrough).result = s.result := rfl
@[simp] theorem State.fallThrough_keyIn (s : State) : (s.fallThrough).keyIn = s.keyIn := rfl
@[simp] theorem State.fallThrough_rndIn (s : State) : (s.fallThrough).rndIn = s.rndIn := rfl
@[simp] theorem State.fallThrough_getV (s : State) (y : Reg) : (s.fallThrough).getV y = s.getV y := rfl
@[simp] theorem State.fallThrough_getSlot (s : State) (j : BitVec 4) : (s.fallThrough).getSlot j = s.getSlot j := rfl

@[simp] theorem State.skipIf_v (s : State) (c : Bool) : (s.skipIf c).v = s.v := rfl
@[simp] theorem State.skipIf_i (s : State) (c : Bool) : (s.skipIf c).i = s.i := rfl
@[simp] theorem State.skipIf_pc (s : State) (c : Bool) : (s.skipIf c).pc = if c then s.pc + 4 else s.pc + 2 := rfl
@[simp] theorem State.skipIf_stack (s : State) (c : Bool) : (s.skipIf c).stack = s.stack := rfl
@[simp] theorem State.skipIf_sp (s : State) (c : Bool) : (s.skipIf c).sp = s.sp := rfl
@[simp] theorem State.skipIf_dt (s : State) (c : Bool) : (s.skipIf c).dt = s.dt := rfl
@[simp] theorem State.skipIf_st (s : State) (c : Bool) : (s.skipIf c).st = s.st := rfl
@[simp] theorem State.skipIf_fb (s : State) (c : Bool) : (s.skipIf c).fb = s.fb := rfl
@[simp] theorem State.skipIf_mem (s : State) (c : Bool) : (s.skipIf c).mem = s.mem := rfl
@[simp] theorem State.skipIf_result (s : State) (c : Bool) : (s.skipIf c).result = s.result := rfl
@[simp] theorem State.skipIf_keyIn (s : State) (c : Bool) : (s.skipIf c).keyIn = s.keyIn := rfl
@[simp] theorem State.skipIf_rndIn (s : State) (c : Bool) : (s.skipIf c).rndIn = s.rndIn := rfl
@[simp] theorem State.skipIf_getV (s : State) (c : Bool) (y : Reg) : (s.skipIf c).getV y = s.getV y := rfl
@[simp] theorem State.skipIf_getSlot (s : State) (c : Bool) (j : BitVec 4) : (s.skipIf c).getSlot j = s.getSlot j := rfl

@[simp] theorem State.jumpTo_v (s : State) (a : Addr) : (s.jumpTo a).v = s.v := rfl
@[simp] theorem State.jumpTo_i (s : State) (a : Addr) : (s.jumpTo a).i = s.i := rfl
@[simp] theorem State.jumpTo_pc (s : State) (a : Addr) : (s.jumpTo a).pc = a := rfl
@[simp] theorem State.jumpTo_stack (s : State) (a : Addr) : (s.jumpTo a).stack = s.stack := rfl
@[simp] theorem State.jumpTo_sp (s : State) (a : Addr) : (s.jumpTo a).sp = s.sp := rfl
@[simp] theorem State.jumpTo_dt (s : State) (a : Addr) : (s.jumpTo a).dt = s.dt := rfl
@[simp] theorem State.jumpTo_st (s : State) (a : Addr) : (s.jumpTo a).st = s.st := rfl
@[simp] theorem State.jumpTo_fb (s : State) (a : Addr) : (s.jumpTo a).fb = s.fb := rfl
@[simp] theorem State.jumpTo_mem (s : State) (a : Addr) : (s.jumpTo a).mem = s.mem := rfl
@[simp] theorem State.jumpTo_result (s : State) (a : Addr) : (s.jumpTo a).result = s.result := rfl
@[simp] theorem State.jumpTo_keyIn (s : State) (a : Addr) : (s.jumpTo a).keyIn = s.keyIn := rfl
@[simp] theorem State.jumpTo_rndIn (s : State) (a : Addr) : (s.jumpTo a).rndIn = s.rndIn := rfl
@[simp] theorem State.jumpTo_getV (s : State) (a : Addr) (y : Reg) : (s.jumpTo a).getV y = s.getV y := rfl
@[simp] theorem State.jumpTo_getSlot (s : State) (a : Addr) (j : BitVec 4) : (s.jumpTo a).getSlot j = s.getSlot j := rfl

@[simp] theorem State.beginStep_v (s : State) : (s.beginStep).v = s.v := rfl
@[simp] theorem State.beginStep_i (s : State) : (s.beginStep).i = s.i := rfl
@[simp] theorem State.beginStep_pc (s : State) : (s.beginStep).pc = s.pc := rfl
@[simp] theorem State.beginStep_stack (s : State) : (s.beginStep).stack = s.stack := rfl
@[simp] theorem State.beginStep_sp (s : State) : (s.beginStep).sp = s.sp := rfl
@[simp] theorem State.beginStep_dt (s : State) : (s.beginStep).dt = s.dt := rfl
@[simp] theorem State.beginStep_st (s : State) : (s.beginStep).st = s.st := rfl
@[simp] theorem State.beginStep_fb (s : State) : (s.beginStep).fb = s.fb := rfl
@[simp] theorem State.beginStep_mem (s : State) : (s.beginStep).mem = s.mem := rfl
@[simp] theorem State.beginStep_result (s : State) : (s.beginStep).result = none := rfl
@[simp] theorem State.beginStep_keyIn (s : State) : (s.beginStep).keyIn = s.keyIn := rfl
@[simp] theorem State.beginStep_rndIn (s : State) : (s.beginStep).rndIn = s.rndIn := rfl
@[simp] theorem State.beginStep_getV (s : State) (y : Reg) : (s.beginStep).getV y = s.getV y := rfl
@[simp] theorem State.beginStep_getSlot (s : State) (j : BitVec 4) : (s.beginStep).getSlot j = s.getSlot j := rfl

@[simp] theorem State.takeKey_v (s : State) : (s.takeKey).v = s.v := rfl
@[simp] theorem State.takeKey_i (s : State) : (s.takeKey).i = s.i := rfl
@[simp] theorem State.takeKey_pc (s : State) : (s.takeKey).pc = s.pc := rfl
@[simp] theorem State.takeKey_stack (s : State) : (s.takeKey).stack = s.stack := rfl
@[simp] theorem State.takeKey_sp (s : State) : (s.takeKey).sp = s.sp := rfl
@[simp] theorem State.takeKey_dt (s : State) : (s.takeKey).dt = s.dt := rfl
@[simp] theorem State.takeKey_st (s : State) : (s.takeKey).st = s.st := rfl
@[simp] theorem State.takeKey_fb (s : State) : (s.takeKey).fb = s.fb := rfl
@[simp] theorem State.takeKey_mem (s : State) : (s.takeKey).mem = s.mem := rfl
@[simp] theorem State.takeKey_result (s : State) : (s.takeKey).result = s.result := rfl
@[simp] theorem State.takeKey_keyIn (s : State) : (s.takeKey).keyIn = s.keyIn.advance := rfl
@[simp] theorem State.takeKey_rndIn (s : State) : (s.takeKey).rndIn = s.rndIn := rfl
@[simp] theorem State.takeKey_getV (s : State) (y : Reg) : (s.takeKey).getV y = s.getV y := rfl
@[simp] theorem State.takeKey_getSlot (s : State) (j : BitVec 4) : (s.takeKey).getSlot j = s.getSlot j := rfl

@[simp] theorem State.tick_v (s : State) : (s.tick).v = s.v := rfl
@[simp] theorem State.tick_i (s : State) : (s.tick).i = s.i := rfl
@[simp] theorem State.tick_pc (s : State) : (s.tick).pc = s.pc := rfl
@[simp] theorem State.tick_stack (s : State) : (s.tick).stack = s.stack := rfl
@[simp] theorem State.tick_sp (s : State) : (s.tick).sp = s.sp := rfl
@[simp] theorem State.tick_dt (s : State) : (s.tick).dt = tickTimer s.dt := rfl
@[simp] theorem State.tick_st (s : State) : (s.tick).st = tickTimer s.st := rfl
@[simp] theorem State.tick_fb (s : State) : (s.tick).fb = s.fb := rfl
@[simp] theorem State.tick_mem (s : State) : (s.tick).mem = s.mem := rfl
@[simp] theorem State.tick_result (s : State) : (s.tick).result = s.result := rfl
@[simp] theorem State.tick_keyIn (s : State) : (s.tick).keyIn = s.keyIn := rfl
@[simp] theorem State.tick_rndIn (s : State) : (s.tick).rndIn = s.rndIn := rfl
@[simp] theorem State.tick_getV (s : State) (y : Reg) : (s.tick).getV y = s.getV y := rfl
@[simp] theorem State.tick_getSlot (s : State) (j : BitVec 4) : (s.tick).getSlot j = s.getSlot j := rfl

@[simp] theorem State.setVFlag_eq (s : State) (x : Reg) (b flag : Byte) :
    s.setVFlag x b flag = (s.setV x b).setV Reg.vf flag := rfl

@[simp] theorem State.raise_eq (s : State) (f : Fault) : s.raise f = .next { s with result := some f } := rfl

@[simp] theorem State.aborted_none (s : State) (h : s.result = none) : s.aborted = false := by simp [State.aborted, h]

@[simp] theorem State.aborted_some (s : State) (f : Fault) (h : s.result = some f) : s.aborted = f.aborts := by
  simp [State.aborted, h]

/-- The end of a committed step. -/
theorem State.finishStep_committed (s : State) (h : s.aborted = false) : s.finishStep = s.tick.takeKey := by
  simp [State.finishStep, h]

/-- The end of an aborted step. -/
theorem State.finishStep_aborted (s : State) (h : s.aborted = true) : s.finishStep = s.takeKey := by
  simp [State.finishStep, h]

@[simp] theorem finishOutcome_next (t : State) : finishOutcome (.next t) = .next t.finishStep := rfl

@[simp] theorem State.finishStep_v (s : State) : s.finishStep.v = s.v := by unfold State.finishStep; split <;> rfl
@[simp] theorem State.finishStep_i (s : State) : s.finishStep.i = s.i := by unfold State.finishStep; split <;> rfl
@[simp] theorem State.finishStep_pc (s : State) : s.finishStep.pc = s.pc := by unfold State.finishStep; split <;> rfl
@[simp] theorem State.finishStep_stack (s : State) : s.finishStep.stack = s.stack := by unfold State.finishStep; split <;> rfl
@[simp] theorem State.finishStep_sp (s : State) : s.finishStep.sp = s.sp := by unfold State.finishStep; split <;> rfl
theorem State.finishStep_dt (s : State) : s.finishStep.dt = if s.aborted then s.dt else tickTimer s.dt := by
  unfold State.finishStep; split <;> rfl
theorem State.finishStep_st (s : State) : s.finishStep.st = if s.aborted then s.st else tickTimer s.st := by
  unfold State.finishStep; split <;> rfl
@[simp] theorem State.finishStep_fb (s : State) : s.finishStep.fb = s.fb := by unfold State.finishStep; split <;> rfl
@[simp] theorem State.finishStep_mem (s : State) : s.finishStep.mem = s.mem := by unfold State.finishStep; split <;> rfl
@[simp] theorem State.finishStep_result (s : State) : s.finishStep.result = s.result := by unfold State.finishStep; split <;> rfl
@[simp] theorem State.finishStep_keyIn (s : State) : s.finishStep.keyIn = s.keyIn.advance := by unfold State.finishStep; split <;> rfl
@[simp] theorem State.finishStep_rndIn (s : State) : s.finishStep.rndIn = s.rndIn := by unfold State.finishStep; split <;> rfl
@[simp] theorem State.finishStep_getV (s : State) (x : Reg) : s.finishStep.getV x = s.getV x := by simp [State.getV]
@[simp] theorem State.finishStep_getSlot (s : State) (k : BitVec 4) : s.finishStep.getSlot k = s.getSlot k := by
  simp [State.getSlot]

end Sys2Proof.Machine
end

