-- ==== Sys2Proof/Laws/Operands.lean ====
section
/-! SUPPORT. The laws of the operands: registers, stack slots, framebuffer cells, the block load, the key search. -/

namespace Sys2Proof.Machine

/-- A register read after a register write. -/
@[simp] theorem State.getV_setV (s : State) (x y : Reg) (b : Byte) :
    (s.setV x b).getV y = if y = x then b else s.getV y := by
  simp only [State.getV, State.setV_v, Vector.getElem_set, Fin.ext_iff, eq_comm]

/-- A slot read after a slot write. -/
@[simp] theorem State.getSlot_setSlot (s : State) (j k : BitVec 4) (a : Addr) :
    (s.setSlot k a).getSlot j = if j = k then a else s.getSlot j := by
  simp only [State.getSlot, State.setSlot_stack, Vector.getElem_set, BitVec.toNat_eq, eq_comm]

/-- A cell read after a cell has been toggled. -/
theorem Framebuffer.cell_toggle (fb : Framebuffer) (j k : Nat) (hk : k < 2048) :
    (fb.toggle k).cell j = if j = k then !fb.cell j else fb.cell j := by
  have hrow : k / 64 < 32 := by omega
  unfold Framebuffer.cell Framebuffer.toggle Framebuffer.rowOf
  by_cases hr : j / 64 = k / 64
  · rw [hr]
    simp only [Vector.getElem?_setIfInBounds_self, hrow, if_true, Option.getD_some, BitVec.getLsbD_xor]
    have : (1#64 <<< (k % 64)).getLsbD (j % 64) = decide (j = k) := by
      rw [← BitVec.twoPow_eq, BitVec.getLsbD_twoPow]
      have := Nat.mod_lt j (show 0 < 64 by omega)
      by_cases hjk : j = k
      · subst hjk; simp [this]
      · have : ¬ k % 64 = j % 64 := by omega
        simp [hjk, this]
    rw [this]; by_cases hjk : j = k <;> simp [hjk]
  · have hjk : j ≠ k := by rintro rfl; exact hr rfl
    rw [Vector.getElem?_setIfInBounds_ne (by omega), if_neg hjk]

/-- A cleared framebuffer. -/
@[simp] theorem Framebuffer.cell_clear (k : Nat) : Framebuffer.clear.cell k = false := by
  unfold Framebuffer.cell Framebuffer.rowOf Framebuffer.clear
  rw [Vector.getElem?_replicate]; split <;> simp

/-- The block load: the first `count` registers take the bytes, the others keep theirs. -/
theorem loadBlock_get (m : Memory) (base count : Nat) (v : Vector Byte 16) (j : Nat) (hj : j < 16) :
    (loadBlock m base count v)[j] = if j < count then m.read (base + j) else v[j] := by
  induction count with
  | zero => simp [loadBlock]
  | succ k ih =>
    simp only [loadBlock]
    rw [Vector.getElem_setIfInBounds]
    by_cases hk : k = j
    · subst hk; simp
    · simp only [hk, if_false, ih]
      by_cases h : j < k
      · rw [if_pos h, if_pos (by omega)]
      · rw [if_neg h, if_neg (by omega)]

/-- The lowest key, when the search finds one: it is down, and no key below it is. -/
theorem lowestKeyFrom_some {key : BitVec 16} {left lo k : Nat} (h : lowestKeyFrom key left lo = some k) :
    key.getLsbD k = true ∧ lo ≤ k ∧ k < lo + left ∧ ∀ j, lo ≤ j → j < k → key.getLsbD j = false := by
  induction left generalizing lo with
  | zero => simp [lowestKeyFrom] at h
  | succ n ih =>
    unfold lowestKeyFrom at h
    split at h
    · cases h; exact ⟨‹_›, by omega, by omega, fun j h1 h2 => by omega⟩
    · obtain ⟨h1, h2, h3, h4⟩ := ih h
      refine ⟨h1, by omega, by omega, fun j h5 h6 => ?_⟩
      rcases Nat.lt_or_ge lo j with h7 | h7
      · exact h4 j h7 h6
      · obtain rfl : j = lo := by omega
        exact Bool.eq_false_iff.mpr ‹¬ _›

/-- No key is found exactly when none of those searched is down. -/
theorem lowestKeyFrom_none {key : BitVec 16} {left lo : Nat} (h : lowestKeyFrom key left lo = none) :
    ∀ j, lo ≤ j → j < lo + left → key.getLsbD j = false := by
  induction left generalizing lo with
  | zero => intro j h1 h2; omega
  | succ n ih =>
    unfold lowestKeyFrom at h
    split at h
    · cases h
    · intro j h1 h2
      rcases Nat.lt_or_ge lo j with h7 | h7
      · exact ih h j h7 (by omega)
      · obtain rfl : j = lo := by omega
        exact Bool.eq_false_iff.mpr ‹¬ _›

/-- With no key found, no key is down. -/
theorem lowestKey_none {key : BitVec 16} (h : lowestKey key = none) : key = 0 := by
  apply BitVec.eq_of_getLsbD_eq
  intro j hj
  simpa using lowestKeyFrom_none h j (Nat.zero_le _) (by omega)

end Sys2Proof.Machine
end

