-- ==== Sys2Proof/Laws/Display.lean ====
section
/-! SUPPORT. What drawing does, cell by cell: no drawing touches a cell twice, so a cell changes exactly when a set bit of the
sprite falls on it, and the collision flag is the union over the cells that were 1 before (46_display.md R196). -/

namespace Sys2Proof.Machine

/-- A cell after a change of the cells in `P`: 1 when it was 1 and is not in `P`, or was 0 and is. -/
def Flipped (before after : Bool) (P : Prop) : Prop :=
  after = true ↔ (before = true ∧ ¬P) ∨ (before = false ∧ P)

theorem spriteCell_lt (cx cy : Byte) (row col : Nat) : spriteCell cx cy row col < 2048 := by
  unfold spriteCell fbIndex; omega

/-- Two pixels of one drawing fall on one cell only if they are the same pixel (R196 (c)). -/
theorem spriteCell_inj {cx cy : Byte} {row row' col col' : Nat} (hr : row < 32) (hr' : row' < 32) (hc : col < 8)
    (hc' : col' < 8) (h : spriteCell cx cy row col = spriteCell cx cy row' col') : row = row' ∧ col = col' := by
  unfold spriteCell fbIndex at h; omega

/-- The cells a row's first `cols` pixels flip. -/
def RowLights (cx cy : Byte) (row : Nat) (b : Byte) (cols j : Nat) : Prop :=
  ∃ col < cols, b.getLsbD (7 - col) = true ∧ j = spriteCell cx cy row col

theorem drawRow_cell (cx cy : Byte) {row : Nat} (hrow : row < 32) (b : Byte) (d : Drawing) (j : Nat) {cols : Nat}
    (hc : cols ≤ 8) :
    Flipped (d.fb.cell j) ((drawRow cx cy row b cols d).fb.cell j) (RowLights cx cy row b cols j) := by
  induction cols with
  | zero => simp [Flipped, drawRow, RowLights]
  | succ c ih =>
    have ih := ih (by omega)
    unfold drawRow drawPixel
    have hnew : RowLights cx cy row b (c + 1) j ↔
        RowLights cx cy row b c j ∨ (b.getLsbD (7 - c) = true ∧ j = spriteCell cx cy row c) := by
      unfold RowLights
      constructor
      · rintro ⟨col, h1, h2, h3⟩
        rcases Nat.lt_or_ge col c with h | h
        · exact .inl ⟨col, h, h2, h3⟩
        · obtain rfl : col = c := by omega
          exact .inr ⟨h2, h3⟩
      · rintro (⟨col, h1, h2, h3⟩ | ⟨h2, h3⟩)
        · exact ⟨col, by omega, h2, h3⟩
        · exact ⟨c, by omega, h2, h3⟩
    split
    · rename_i hb
      unfold Flipped at ih ⊢
      rw [hnew, Framebuffer.cell_toggle _ _ _ (spriteCell_lt ..)]
      by_cases hj : j = spriteCell cx cy row c
      · have hno : ¬ RowLights cx cy row b c j := by
          rintro ⟨col, h1, h2, h3⟩
          exact absurd (spriteCell_inj hrow hrow (by omega) (by omega) (h3 ▸ hj : spriteCell cx cy row col = _)).2 (by omega)
        simp_all
      · simp only [hj, if_false, and_false, or_false]; exact ih
    · rename_i hb
      unfold Flipped at ih ⊢
      simpa [hnew, hb] using ih

theorem drawRow_collision (cx cy : Byte) {row : Nat} (hrow : row < 32) (b : Byte) (d : Drawing) {cols : Nat}
    (hc : cols ≤ 8) :
    (drawRow cx cy row b cols d).collision = true ↔
      d.collision = true ∨ ∃ j, RowLights cx cy row b cols j ∧ d.fb.cell j = true := by
  induction cols with
  | zero => simp [drawRow, RowLights]
  | succ c ih =>
    have ih := ih (by omega)
    have hcell : (drawRow cx cy row b c d).fb.cell (spriteCell cx cy row c) = d.fb.cell (spriteCell cx cy row c) := by
      have h := drawRow_cell cx cy hrow b d (spriteCell cx cy row c) (cols := c) (by omega)
      have hno : ¬ RowLights cx cy row b c (spriteCell cx cy row c) := by
        rintro ⟨col, h1, h2, h3⟩
        exact absurd (spriteCell_inj hrow hrow (by omega) (by omega) h3).2 (by omega)
      simp only [Flipped, hno, not_false_eq_true, and_true, and_false, or_false] at h
      exact Bool.eq_iff_iff.mpr h
    unfold drawRow drawPixel
    split
    · rename_i hb
      simp only [Bool.or_eq_true, ih, hcell]
      constructor
      · rintro ((h | ⟨j, ⟨col, h1, h2, h3⟩, h4⟩) | h)
        · exact .inl h
        · exact .inr ⟨j, ⟨col, by omega, h2, h3⟩, h4⟩
        · exact .inr ⟨_, ⟨c, by omega, hb, rfl⟩, h⟩
      · rintro (h | ⟨j, ⟨col, h1, h2, h3⟩, h4⟩)
        · exact .inl (.inl h)
        · rcases Nat.lt_or_ge col c with h | h
          · exact .inl (.inr ⟨j, ⟨col, h, h2, h3⟩, h4⟩)
          · obtain rfl : col = c := by omega
            exact .inr (h3 ▸ h4)
    · rename_i hb
      rw [ih]
      constructor
      · rintro (h | ⟨j, ⟨col, h1, h2, h3⟩, h4⟩)
        · exact .inl h
        · exact .inr ⟨j, ⟨col, by omega, h2, h3⟩, h4⟩
      · rintro (h | ⟨j, ⟨col, h1, h2, h3⟩, h4⟩)
        · exact .inl h
        · rcases Nat.lt_or_ge col c with h | h
          · exact .inr ⟨j, ⟨col, h, h2, h3⟩, h4⟩
          · obtain rfl : col = c := by omega
            exact absurd h2 hb

/-- The cells the first `rows` rows of a sprite flip. -/
def SpriteCells (cx cy : Byte) (m : Memory) (base rows j : Nat) : Prop :=
  ∃ row < rows, RowLights cx cy row (m.read (base + row)) 8 j

theorem spriteCells_succ (cx cy : Byte) (m : Memory) (base n j : Nat) :
    SpriteCells cx cy m base (n + 1) j ↔
      SpriteCells cx cy m base n j ∨ RowLights cx cy n (m.read (base + n)) 8 j := by
  unfold SpriteCells
  constructor
  · rintro ⟨row, h1, h2⟩
    rcases Nat.lt_or_ge row n with h | h
    · exact .inl ⟨row, h, h2⟩
    · obtain rfl : row = n := by omega
      exact .inr h2
  · rintro (⟨row, h1, h2⟩ | h2)
    · exact ⟨row, by omega, h2⟩
    · exact ⟨n, by omega, h2⟩

/-- A cell of a new row is none of the rows before it. -/
theorem not_spriteCells_of_rowLights {cx cy : Byte} {m : Memory} {base n j : Nat} {b : Byte} (hn : n < 32)
    (h : RowLights cx cy n b 8 j) : ¬ SpriteCells cx cy m base n j := by
  rintro ⟨row, h1, col, h2, -, h3⟩
  obtain ⟨col', h4, -, h5⟩ := h
  exact absurd (spriteCell_inj (by omega) hn h2 h4 (h3 ▸ h5 : spriteCell cx cy row col = _)).1 (by omega)

/-- What the whole drawing does to a cell. -/
theorem drawRows_cell (cx cy : Byte) (m : Memory) (base : Nat) (d : Drawing) (j : Nat) {n : Nat} (hn : n ≤ 32) :
    Flipped (d.fb.cell j) ((drawRows cx cy m base n d).fb.cell j) (SpriteCells cx cy m base n j) := by
  induction n with
  | zero => simp [Flipped, drawRows, SpriteCells]
  | succ n ih =>
    have ih := ih (by omega)
    have hrow := drawRow_cell cx cy (row := n) (by omega) (m.read (base + n)) (drawRows cx cy m base n d) j
      (cols := 8) (Nat.le_refl _)
    unfold drawRows
    unfold Flipped at ih hrow ⊢
    rw [hrow, spriteCells_succ]
    by_cases hr : RowLights cx cy n (m.read (base + n)) 8 j
    · have hs := not_spriteCells_of_rowLights (m := m) (base := base) (by omega) hr
      simp only [hr, hs, not_true, and_false, false_or, and_true, or_true, not_false_eq_true, or_false] at ih ⊢
      rw [← Bool.not_eq_true, ih, Bool.not_eq_true]
    · simp only [hr, not_false_eq_true, and_true, and_false, or_false]; exact ih

/-- What the whole drawing reports: some cell that was 1 before it is flipped by it. -/
theorem drawRows_collision (cx cy : Byte) (m : Memory) (base : Nat) (d : Drawing) {n : Nat} (hn : n ≤ 32) :
    (drawRows cx cy m base n d).collision = true ↔
      d.collision = true ∨ ∃ j, SpriteCells cx cy m base n j ∧ d.fb.cell j = true := by
  induction n with
  | zero => simp [drawRows, SpriteCells]
  | succ n ih =>
    have ih := ih (by omega)
    unfold drawRows
    rw [drawRow_collision cx cy (by omega) _ _ (Nat.le_refl _), ih]
    have hcell : ∀ j, RowLights cx cy n (m.read (base + n)) 8 j →
        ((drawRows cx cy m base n d).fb.cell j = true ↔ d.fb.cell j = true) := by
      intro j hj
      have h := drawRows_cell cx cy m base d j (n := n) (by omega)
      simpa [Flipped, not_spriteCells_of_rowLights (m := m) (base := base) (by omega) hj] using h
    constructor
    · rintro ((h | ⟨j, h1, h2⟩) | ⟨j, h1, h2⟩)
      · exact .inl h
      · exact .inr ⟨j, (spriteCells_succ ..).mpr (.inl h1), h2⟩
      · exact .inr ⟨j, (spriteCells_succ ..).mpr (.inr h1), (hcell j h1).mp h2⟩
    · rintro (h | ⟨j, h1, h2⟩)
      · exact .inl (.inl h)
      · rcases (spriteCells_succ ..).mp h1 with h | h
        · exact .inl (.inr ⟨j, h, h2⟩)
        · exact .inr ⟨j, h, (hcell j h).mpr h2⟩

end Sys2Proof.Machine
end

