-- ==== Sys2Proof/Laws/Memory.lean ====
section
/-! SUPPORT. The laws of memory: a read after a write, and that every operation keeps the canonical form (20_memory.md R66,
R68). -/

namespace Sys2Proof.Machine

@[simp] theorem Memory.read_nil (a : Nat) : Memory.read [] a = Memory.unlisted a := rfl

@[simp] theorem Memory.read_cons (b a : Nat) (w : Byte) (m : Memory) :
    Memory.read ((b, w) :: m) a = if a = b then w else Memory.read m a := rfl

/-- An address below every cell reads as unlisted. -/
theorem Memory.read_below {m : Memory} {lo a : Nat} (h : m.wfFrom lo = true) (ha : a < lo) :
    m.read a = Memory.unlisted a := by
  induction m generalizing lo with
  | nil => rfl
  | cons c rest ih =>
    obtain ⟨b, w⟩ := c
    simp only [Memory.wfFrom, Bool.and_eq_true, decide_eq_true_eq] at h
    simp only [Memory.read_cons, if_neg (show a ≠ b by omega)]
    exact ih h.2 (by omega)

theorem Memory.wfFrom_mono {m : Memory} {lo lo' : Nat} (h : m.wfFrom lo = true) (hle : lo' ≤ lo) :
    m.wfFrom lo' = true := by
  cases m with
  | nil => rfl
  | cons c rest =>
    obtain ⟨b, w⟩ := c
    simp only [Memory.wfFrom, Bool.and_eq_true, decide_eq_true_eq] at h ⊢
    exact ⟨⟨⟨by omega, h.1.1.2⟩, h.1.2⟩, h.2⟩

/-- A cell put before a memory reads at its address as the byte asked for. -/
theorem Memory.read_cell_append {m : Memory} (a b : Nat) (w : Byte) :
    (Memory.cell a w ++ m).read b
      = if w = Memory.unlisted a then m.read b else if b = a then w else m.read b := by
  unfold Memory.cell; split <;> simp

theorem Memory.wfFrom_cell_append {m : Memory} {a lo : Nat} (w : Byte) (h : m.wfFrom (a + 1) = true) (hlo : lo ≤ a)
    (ha : a < Config.memSize) : (Memory.cell a w ++ m).wfFrom lo = true := by
  unfold Memory.cell
  split
  · exact Memory.wfFrom_mono h (by omega)
  · rename_i hne; simp only [Config.memSize] at ha; simp [Memory.wfFrom, h, hlo, hne, ha]

theorem Memory.wfFrom_write {m : Memory} {lo a : Nat} (w : Byte) (h : m.wfFrom lo = true) (hlo : lo ≤ a)
    (ha : a < Config.memSize) : (m.write a w).wfFrom lo = true := by
  induction m generalizing lo with
  | nil => simpa [Memory.write] using Memory.wfFrom_cell_append (m := []) w rfl hlo ha
  | cons c rest ih =>
    obtain ⟨b, u⟩ := c
    have hc := h
    simp only [Memory.wfFrom, Bool.and_eq_true, decide_eq_true_eq] at h
    unfold Memory.write
    split
    · refine Memory.wfFrom_cell_append w ?_ hlo ha
      simp only [Memory.wfFrom, Bool.and_eq_true, decide_eq_true_eq]
      exact ⟨⟨⟨by omega, h.1.1.2⟩, h.1.2⟩, h.2⟩
    · split
      · rename_i hab; subst hab; exact Memory.wfFrom_cell_append w h.2 hlo ha
      · simp only [Memory.wfFrom, Bool.and_eq_true, decide_eq_true_eq]
        exact ⟨h.1, ih h.2 (by omega)⟩

/-- Every write inside memory keeps the canonical form. -/
theorem Memory.wf_write {m : Memory} {a : Nat} (w : Byte) (h : m.wf = true) (ha : a < Config.memSize) :
    (m.write a w).wf = true := Memory.wfFrom_write w h (Nat.zero_le _) ha

theorem Memory.read_write_from {m : Memory} {lo : Nat} (a b : Nat) (w : Byte) (h : m.wfFrom lo = true) :
    (m.write a w).read b = if b = a then w else m.read b := by
  induction m generalizing lo with
  | nil =>
    rw [Memory.write, ← List.append_nil (Memory.cell a w), Memory.read_cell_append, Memory.read_nil]
    split
    · rename_i hw; split
      · rename_i hb; rw [hb, hw]
      · rfl
    · rfl
  | cons c rest ih =>
    obtain ⟨d, u⟩ := c
    have hc := h
    simp only [Memory.wfFrom, Bool.and_eq_true, decide_eq_true_eq] at h
    unfold Memory.write
    split
    · rename_i hlt
      rw [Memory.read_cell_append]
      by_cases hw : w = Memory.unlisted a
      · rw [if_pos hw]
        by_cases hb : b = a
        · rw [if_pos hb, hb, Memory.read_cons, if_neg (by omega), Memory.read_below h.2 (by omega), hw]
        · rw [if_neg hb]
      · rw [if_neg hw]
    · split
      · rename_i hlt had; subst had
        rw [Memory.read_cell_append]
        by_cases hw : w = Memory.unlisted a
        · rw [if_pos hw]
          by_cases hb : b = a
          · rw [if_pos hb, hb, Memory.read_below h.2 (by omega), hw]
          · rw [if_neg hb, Memory.read_cons, if_neg hb]
        · rw [if_neg hw, Memory.read_cons]
          by_cases hb : b = a <;> simp [hb]
      · rename_i hlt had
        rw [Memory.read_cons, Memory.read_cons, ih h.2]
        by_cases hb : b = d
        · rw [if_pos hb, if_pos hb, if_neg (by omega)]
        · rw [if_neg hb, if_neg hb]

/-- A read after a write: the byte written at that address, every other byte as it was. -/
theorem Memory.read_write {m : Memory} (a b : Nat) (w : Byte) (h : m.wf = true) :
    (m.write a w).read b = if b = a then w else m.read b := Memory.read_write_from a b w h

/-- Every block write inside memory keeps the canonical form. -/
theorem Memory.wf_writeBytes {m : Memory} {a : Nat} (ws : List Byte) (h : m.wf = true)
    (ha : a + ws.length ≤ Config.memSize) : (m.writeBytes a ws).wf = true := by
  induction ws generalizing m a with
  | nil => exact h
  | cons w ws ih =>
    simp only [List.length_cons] at ha
    exact ih (Memory.wf_write w h (by omega)) (by omega)

/-- A read after a block write: byte `b - a` of the block inside it, every other byte as it was. -/
theorem Memory.read_writeBytes {m : Memory} {a : Nat} (b : Nat) (ws : List Byte) (h : m.wf = true)
    (ha : a + ws.length ≤ Config.memSize) :
    (m.writeBytes a ws).read b = if a ≤ b ∧ b < a + ws.length then ws.getD (b - a) 0 else m.read b := by
  induction ws generalizing m a with
  | nil => simp [Memory.writeBytes]
  | cons w ws ih =>
    simp only [List.length_cons] at ha
    rw [Memory.writeBytes, ih (Memory.wf_write w h (by omega)) (by omega), Memory.read_write a b w h]
    simp only [List.length_cons]
    by_cases h1 : b = a
    · subst h1
      rw [if_neg (by omega), if_pos rfl, if_pos (by omega)]; simp
    · rw [if_neg h1]
      by_cases h2 : a + 1 ≤ b ∧ b < a + 1 + ws.length
      · rw [if_pos h2, if_pos (by omega), show b - a = (b - (a + 1)) + 1 by omega]; simp
      · rw [if_neg h2, if_neg (by omega)]

/-- The bounds check of a block. -/
theorem blockInBounds_iff (base : Addr) (count : Nat) :
    blockInBounds base count = true ↔ count = 0 ∨ base.toNat + count ≤ 0x1000 := by
  simp [blockInBounds]

/-- Reset memory, nothing listed, has the canonical form. -/
theorem Memory.wf_reset : Memory.wf State.reset.mem = true := rfl

end Sys2Proof.Machine
end

