-- ==== Sys2Proof/Laws/Ops.lean ====
section
/-! SUPPORT. One spec lemma per shared operation: the fetch, storing at I, the placing of a word. -/

namespace Sys2Proof.Machine

/-- The fetch succeeds for PC up to 0xFFE (40_step_cycle.md R121). -/
theorem State.fetch_ok {s : State} (h : s.pc.toNat ≤ 0xFFE) : s.fetch = .ok s.wordAtPc := by
  unfold State.fetch Memory.readChecked
  rw [if_neg (by omega)]; dsimp only
  rw [if_neg (by omega)]; rfl

/-- The fetch fails for every other PC, and reports the lowest of its two addresses that is out of bounds (R121). -/
theorem State.fetch_error {s : State} (h : 0xFFE < s.pc.toNat) :
    s.fetch = .error (.memoryOutOfBounds (if s.pc.toNat = 0xFFF then 0x1000 else s.pc)) := by
  unfold State.fetch Memory.readChecked
  by_cases hp : s.pc.toNat = 0xFFF
  · rw [if_neg (by omega)]; dsimp only
    rw [if_pos (by omega), if_pos hp, hp]; rfl
  · rw [if_pos (by omega), if_neg hp]; simp

/-- Storing at I in bounds: the block is written and PC moves on. -/
theorem State.storeAtI_in {s : State} {bytes : List Byte} (h : blockInBounds s.i bytes.length = true) :
    s.storeAtI bytes = .next { s with mem := s.mem.writeBytes s.i.toNat bytes, pc := s.pc + 2 } := by
  unfold State.storeAtI; rw [if_pos h]; rfl

/-- Storing at I out of bounds: the fault is taken and nothing is written. -/
theorem State.storeAtI_out {s : State} {bytes : List Byte} (h : blockInBounds s.i bytes.length = false) :
    s.storeAtI bytes = .next { s with result := some (.memoryOutOfBounds (blockFaultAddr s.i)) } := by
  unfold State.storeAtI; rw [if_neg (by simp [h])]; rfl

@[simp] theorem State.beginStep_wordAtPc (s : State) : s.beginStep.wordAtPc = s.wordAtPc := rfl

@[simp] theorem bcdDigits_length (b : Byte) : (bcdDigits b).length = 3 := rfl

@[simp] theorem State.firstRegs_length (s : State) (x : Reg) : (s.firstRegs x).length = x.val + 1 := by
  simp [State.firstRegs]

/-- The block Fx55 stores, byte by byte. -/
theorem State.firstRegs_getD (s : State) (x : Reg) (j : Nat) (hj : j ≤ x.val) :
    (s.firstRegs x).getD j 0 = s.getV ⟨j, by omega⟩ := by
  have hx := x.isLt
  simp only [State.firstRegs, State.getV, List.getD_eq_getElem?_getD]
  rw [List.getElem?_take_of_lt (by omega), List.getElem?_eq_getElem (by simp; omega)]
  simp

/-- The placed word is the one the next step fetches. -/
theorem State.placeWord_fetch {s : State} (w : Opcode) (h : s.mem.wf = true) : (s.placeWord w).fetch = .ok w := by
  have key : ∀ p : Addr, p.toNat ≤ 0xFFE →
      ({ s with pc := p, mem := s.mem.writeBytes p.toNat [highByte w, lowByte w] } : State).fetch = .ok w := by
    intro p hp
    rw [State.fetch_ok hp]
    have hb : p.toNat + [highByte w, lowByte w].length ≤ Config.memSize := by simp; omega
    simp only [State.wordAtPc, Memory.read_writeBytes _ _ h hb]
    simp
  unfold State.placeWord
  by_cases hp : s.pc.toNat ≤ 0xFFE
  · simp only [if_pos hp]; exact key s.pc hp
  · simp only [if_neg hp]; exact key _ (by decide)

/-- Placing a word keeps the canonical form. -/
theorem State.placeWord_wf {s : State} (w : Opcode) (h : s.mem.wf = true) : (s.placeWord w).mem.wf = true := by
  unfold State.placeWord
  refine Memory.wf_writeBytes _ h ?_
  by_cases hp : s.pc.toNat ≤ 0xFFE
  · simp [if_pos hp]; omega
  · simp [if_neg hp]

end Sys2Proof.Machine
end

