-- ==== Sys2Proof/Laws/PerInstr.lean ====
section
/-! SUPPORT. What holds of every instruction as a piece of syntax, one lemma per constructor. -/

namespace Sys2Proof

/-- A bit of a masked concatenation, format by format: the fields' own bits are masked away and the fixed ones stay. -/
theorem encodeNNN_masked (op : BitVec 4) (nnn : BitVec 12) : encodeNNN op nnn &&& 0xF000 = op ++ (0 : BitVec 12) := by
  have : (0xF000 : BitVec 16) = (0xF : BitVec 4) ++ (0 : BitVec 12) := by decide
  rw [this, encodeNNN, BitVec.and_append]
  congr 1
  · exact (BitVec.and_allOnes : op &&& BitVec.allOnes 4 = op)
  · exact BitVec.and_zero

theorem encodeXKK_masked (op : BitVec 4) (x : Reg) (kk : Byte) :
    encodeXKK op x kk &&& 0xF000 = (op ++ (0 : BitVec 4)) ++ (0 : BitVec 8) := by
  have : (0xF000 : BitVec 16) = ((0xF : BitVec 4) ++ (0 : BitVec 4)) ++ (0 : BitVec 8) := by decide
  rw [this, encodeXKK, BitVec.and_append, BitVec.and_append]
  congr 1
  · congr 1
    · exact (BitVec.and_allOnes : op &&& BitVec.allOnes 4 = op)
    · exact BitVec.and_zero
  · exact BitVec.and_zero

theorem encodeX_masked (op : BitVec 4) (x : Reg) (kk : Byte) :
    encodeXKK op x kk &&& 0xF0FF = (op ++ (0 : BitVec 4)) ++ kk := by
  have : (0xF0FF : BitVec 16) = ((0xF : BitVec 4) ++ (0 : BitVec 4)) ++ (0xFF : BitVec 8) := by decide
  rw [this, encodeXKK, BitVec.and_append, BitVec.and_append]
  congr 1
  · congr 1
    · exact (BitVec.and_allOnes : op &&& BitVec.allOnes 4 = op)
    · exact BitVec.and_zero
  · exact (BitVec.and_allOnes : kk &&& BitVec.allOnes 8 = kk)

theorem encodeXY_masked (op : BitVec 4) (x y : Reg) (n : BitVec 4) :
    encodeXYN op x y n &&& 0xF00F = (op ++ (0 : BitVec 4)) ++ ((0 : BitVec 4) ++ n) := by
  have : (0xF00F : BitVec 16) = ((0xF : BitVec 4) ++ (0 : BitVec 4)) ++ ((0 : BitVec 4) ++ (0xF : BitVec 4)) := by decide
  rw [this, encodeXYN, BitVec.and_append, BitVec.and_append, BitVec.and_append]
  congr 1
  · congr 1
    · exact (BitVec.and_allOnes : op &&& BitVec.allOnes 4 = op)
    · exact BitVec.and_zero
  · congr 1
    · exact BitVec.and_zero
    · exact (BitVec.and_allOnes : n &&& BitVec.allOnes 4 = n)

theorem encodeXYN_masked (op : BitVec 4) (x y : Reg) (n : BitVec 4) :
    encodeXYN op x y n &&& 0xF000 = (op ++ (0 : BitVec 4)) ++ (0 : BitVec 8) := by
  have : (0xF000 : BitVec 16) = ((0xF : BitVec 4) ++ (0 : BitVec 4)) ++ (0 : BitVec 8) := by decide
  rw [this, encodeXYN, BitVec.and_append, BitVec.and_append]
  congr 1
  · congr 1
    · exact (BitVec.and_allOnes : op &&& BitVec.allOnes 4 = op)
    · exact BitVec.and_zero
  · exact BitVec.and_zero

/-- The word of an instruction belongs to the instruction's row of the opcode map, and the row is one of the map's
(30_encoding.md R95). -/
def Laws.EncodesItsRow.Statement (i : Instr) : Prop := i.row.admits (encode i) = true ∧ i.row ∈ opcodeMap

theorem Laws.EncodesItsRow.cls : Laws.EncodesItsRow.Statement (.cls) := by
  exact ⟨by decide, by decide⟩
theorem Laws.EncodesItsRow.ret : Laws.EncodesItsRow.Statement (.ret) := by
  exact ⟨by decide, by decide⟩
theorem Laws.EncodesItsRow.jp (nnn : BitVec 12) : Laws.EncodesItsRow.Statement (.jp nnn) :=
  ⟨beq_iff_eq.mpr ((encodeNNN_masked ..).trans rfl), (by decide : (Instr.jp 0).row ∈ opcodeMap)⟩
theorem Laws.EncodesItsRow.call (nnn : BitVec 12) : Laws.EncodesItsRow.Statement (.call nnn) :=
  ⟨beq_iff_eq.mpr ((encodeNNN_masked ..).trans rfl), (by decide : (Instr.call 0).row ∈ opcodeMap)⟩
theorem Laws.EncodesItsRow.seImm (x : Reg) (kk : Byte) : Laws.EncodesItsRow.Statement (.seImm x kk) :=
  ⟨beq_iff_eq.mpr ((encodeXKK_masked ..).trans rfl), (by decide : (Instr.seImm 0 0).row ∈ opcodeMap)⟩
theorem Laws.EncodesItsRow.sneImm (x : Reg) (kk : Byte) : Laws.EncodesItsRow.Statement (.sneImm x kk) :=
  ⟨beq_iff_eq.mpr ((encodeXKK_masked ..).trans rfl), (by decide : (Instr.sneImm 0 0).row ∈ opcodeMap)⟩
theorem Laws.EncodesItsRow.seReg (x y : Reg) : Laws.EncodesItsRow.Statement (.seReg x y) :=
  ⟨beq_iff_eq.mpr ((encodeXY_masked ..).trans rfl), (by decide : (Instr.seReg 0 0).row ∈ opcodeMap)⟩
theorem Laws.EncodesItsRow.sneReg (x y : Reg) : Laws.EncodesItsRow.Statement (.sneReg x y) :=
  ⟨beq_iff_eq.mpr ((encodeXY_masked ..).trans rfl), (by decide : (Instr.sneReg 0 0).row ∈ opcodeMap)⟩
theorem Laws.EncodesItsRow.ldImm (x : Reg) (kk : Byte) : Laws.EncodesItsRow.Statement (.ldImm x kk) :=
  ⟨beq_iff_eq.mpr ((encodeXKK_masked ..).trans rfl), (by decide : (Instr.ldImm 0 0).row ∈ opcodeMap)⟩
theorem Laws.EncodesItsRow.addImm (x : Reg) (kk : Byte) : Laws.EncodesItsRow.Statement (.addImm x kk) :=
  ⟨beq_iff_eq.mpr ((encodeXKK_masked ..).trans rfl), (by decide : (Instr.addImm 0 0).row ∈ opcodeMap)⟩
theorem Laws.EncodesItsRow.ldReg (x y : Reg) : Laws.EncodesItsRow.Statement (.ldReg x y) :=
  ⟨beq_iff_eq.mpr ((encodeXY_masked ..).trans rfl), (by decide : (Instr.ldReg 0 0).row ∈ opcodeMap)⟩
theorem Laws.EncodesItsRow.orReg (x y : Reg) : Laws.EncodesItsRow.Statement (.orReg x y) :=
  ⟨beq_iff_eq.mpr ((encodeXY_masked ..).trans rfl), (by decide : (Instr.orReg 0 0).row ∈ opcodeMap)⟩
theorem Laws.EncodesItsRow.andReg (x y : Reg) : Laws.EncodesItsRow.Statement (.andReg x y) :=
  ⟨beq_iff_eq.mpr ((encodeXY_masked ..).trans rfl), (by decide : (Instr.andReg 0 0).row ∈ opcodeMap)⟩
theorem Laws.EncodesItsRow.xorReg (x y : Reg) : Laws.EncodesItsRow.Statement (.xorReg x y) :=
  ⟨beq_iff_eq.mpr ((encodeXY_masked ..).trans rfl), (by decide : (Instr.xorReg 0 0).row ∈ opcodeMap)⟩
theorem Laws.EncodesItsRow.addReg (x y : Reg) : Laws.EncodesItsRow.Statement (.addReg x y) :=
  ⟨beq_iff_eq.mpr ((encodeXY_masked ..).trans rfl), (by decide : (Instr.addReg 0 0).row ∈ opcodeMap)⟩
theorem Laws.EncodesItsRow.sub (x y : Reg) : Laws.EncodesItsRow.Statement (.sub x y) :=
  ⟨beq_iff_eq.mpr ((encodeXY_masked ..).trans rfl), (by decide : (Instr.sub 0 0).row ∈ opcodeMap)⟩
theorem Laws.EncodesItsRow.shr (x y : Reg) : Laws.EncodesItsRow.Statement (.shr x y) :=
  ⟨beq_iff_eq.mpr ((encodeXY_masked ..).trans rfl), (by decide : (Instr.shr 0 0).row ∈ opcodeMap)⟩
theorem Laws.EncodesItsRow.subn (x y : Reg) : Laws.EncodesItsRow.Statement (.subn x y) :=
  ⟨beq_iff_eq.mpr ((encodeXY_masked ..).trans rfl), (by decide : (Instr.subn 0 0).row ∈ opcodeMap)⟩
theorem Laws.EncodesItsRow.shl (x y : Reg) : Laws.EncodesItsRow.Statement (.shl x y) :=
  ⟨beq_iff_eq.mpr ((encodeXY_masked ..).trans rfl), (by decide : (Instr.shl 0 0).row ∈ opcodeMap)⟩
theorem Laws.EncodesItsRow.ldI (nnn : BitVec 12) : Laws.EncodesItsRow.Statement (.ldI nnn) :=
  ⟨beq_iff_eq.mpr ((encodeNNN_masked ..).trans rfl), (by decide : (Instr.ldI 0).row ∈ opcodeMap)⟩
theorem Laws.EncodesItsRow.jpV0 (nnn : BitVec 12) : Laws.EncodesItsRow.Statement (.jpV0 nnn) :=
  ⟨beq_iff_eq.mpr ((encodeNNN_masked ..).trans rfl), (by decide : (Instr.jpV0 0).row ∈ opcodeMap)⟩
theorem Laws.EncodesItsRow.rnd (x : Reg) (kk : Byte) : Laws.EncodesItsRow.Statement (.rnd x kk) :=
  ⟨beq_iff_eq.mpr ((encodeXKK_masked ..).trans rfl), (by decide : (Instr.rnd 0 0).row ∈ opcodeMap)⟩
theorem Laws.EncodesItsRow.drw (x y n : Fin 16) : Laws.EncodesItsRow.Statement (.drw x y n) :=
  ⟨beq_iff_eq.mpr ((encodeXYN_masked ..).trans rfl), (by decide : (Instr.drw 0 0 0).row ∈ opcodeMap)⟩
theorem Laws.EncodesItsRow.skp (x : Reg) : Laws.EncodesItsRow.Statement (.skp x) :=
  ⟨beq_iff_eq.mpr ((encodeX_masked ..).trans rfl), (by decide : (Instr.skp 0).row ∈ opcodeMap)⟩
theorem Laws.EncodesItsRow.sknp (x : Reg) : Laws.EncodesItsRow.Statement (.sknp x) :=
  ⟨beq_iff_eq.mpr ((encodeX_masked ..).trans rfl), (by decide : (Instr.sknp 0).row ∈ opcodeMap)⟩
theorem Laws.EncodesItsRow.ldVxDt (x : Reg) : Laws.EncodesItsRow.Statement (.ldVxDt x) :=
  ⟨beq_iff_eq.mpr ((encodeX_masked ..).trans rfl), (by decide : (Instr.ldVxDt 0).row ∈ opcodeMap)⟩
theorem Laws.EncodesItsRow.ldVxK (x : Reg) : Laws.EncodesItsRow.Statement (.ldVxK x) :=
  ⟨beq_iff_eq.mpr ((encodeX_masked ..).trans rfl), (by decide : (Instr.ldVxK 0).row ∈ opcodeMap)⟩
theorem Laws.EncodesItsRow.ldDtVx (x : Reg) : Laws.EncodesItsRow.Statement (.ldDtVx x) :=
  ⟨beq_iff_eq.mpr ((encodeX_masked ..).trans rfl), (by decide : (Instr.ldDtVx 0).row ∈ opcodeMap)⟩
theorem Laws.EncodesItsRow.ldStVx (x : Reg) : Laws.EncodesItsRow.Statement (.ldStVx x) :=
  ⟨beq_iff_eq.mpr ((encodeX_masked ..).trans rfl), (by decide : (Instr.ldStVx 0).row ∈ opcodeMap)⟩
theorem Laws.EncodesItsRow.addI (x : Reg) : Laws.EncodesItsRow.Statement (.addI x) :=
  ⟨beq_iff_eq.mpr ((encodeX_masked ..).trans rfl), (by decide : (Instr.addI 0).row ∈ opcodeMap)⟩
theorem Laws.EncodesItsRow.ldF (x : Reg) : Laws.EncodesItsRow.Statement (.ldF x) :=
  ⟨beq_iff_eq.mpr ((encodeX_masked ..).trans rfl), (by decide : (Instr.ldF 0).row ∈ opcodeMap)⟩
theorem Laws.EncodesItsRow.ldB (x : Reg) : Laws.EncodesItsRow.Statement (.ldB x) :=
  ⟨beq_iff_eq.mpr ((encodeX_masked ..).trans rfl), (by decide : (Instr.ldB 0).row ∈ opcodeMap)⟩
theorem Laws.EncodesItsRow.storeRegs (x : Reg) : Laws.EncodesItsRow.Statement (.storeRegs x) :=
  ⟨beq_iff_eq.mpr ((encodeX_masked ..).trans rfl), (by decide : (Instr.storeRegs 0).row ∈ opcodeMap)⟩
theorem Laws.EncodesItsRow.loadRegs (x : Reg) : Laws.EncodesItsRow.Statement (.loadRegs x) :=
  ⟨beq_iff_eq.mpr ((encodeX_masked ..).trans rfl), (by decide : (Instr.loadRegs 0).row ∈ opcodeMap)⟩

end Sys2Proof
end

