-- ==== Sys2Proof/Laws/Step.lean ====
section
/-! SUPPORT. What one step can do, said once: the inversion lemma that claims about the step cite instead of unfolding it
(40_step_cycle.md R120 to R127). -/

namespace Sys2Proof.Machine

/-- A 16-bit word always has the two bytes of an opcode. -/
theorem decode_ne_truncated (w : Opcode) : decode w ≠ .truncated := by
  unfold decode
  split
  all_goals try unfold decodeFamily0
  all_goals try unfold decodeFamily8
  all_goals try unfold decodeFamilyE
  all_goals try unfold decodeFamilyF
  all_goals repeat' split
  all_goals simp

/-- Every meaning answers a next state, and it either leaves the result ports as the step set them or takes an aborting fault
and changes nothing else (60_exceptions.md R228). -/
theorem exec_cases (i : Instr) (s : State) :
    ∃ t, exec i s = .next t ∧
      (t.result = s.result ∨ ∃ f, f.aborts = true ∧ t = { s with result := some f }) := by
  cases i <;>
    simp only [exec, execCls, execRet, execJp, execCall, execSeImm, execSneImm, execSeReg, execSneReg, execLdImm, execAddImm,
      execLdReg, execOrReg, execAndReg, execXorReg, execAddReg, execSub, execShr, execSubn, execShl, execLdI, execJpV0, execRnd,
      execDrw, execSkp, execSknp, execLdVxDt, execLdVxK, execLdDtVx, execLdStVx, execAddI, execLdF, execLdB, execStoreRegs,
      execLoadRegs, State.storeAtI, State.raise] <;>
    (repeat' split) <;>
    first
      | exact ⟨_, rfl, .inl rfl⟩
      | exact ⟨_, rfl, .inr ⟨_, rfl, rfl⟩⟩

/-- A state runs at most one instruction. -/
theorem State.Runs.unique {s : State} {i j : Instr} (h : s.Runs i) (h' : s.Runs j) : i = j := by
  have := h.2.symm.trans h'.2; cases this; rfl

/-- THE INVERSION OF A STEP: the fetch fails, or the word is Unknown, or one instruction runs and the step is finished. -/
theorem step_cases (s : State) :
    (0xFFE < s.pc.toNat ∧ step s = .next { s with
      result := some (.memoryOutOfBounds (if s.pc.toNat = 0xFFF then 0x1000 else s.pc)), keyIn := s.keyIn.advance }) ∨
    (s.pc.toNat ≤ 0xFFE ∧ decode s.wordAtPc = .unknown ∧ step s = .next { s with
      pc := s.pc + 2, dt := tickTimer s.dt, st := tickTimer s.st
      result := some (.unhandledOpcode s.wordAtPc), keyIn := s.keyIn.advance }) ∨
    (∃ i t, s.Runs i ∧ exec i s.beginStep = .next t ∧ step s = .next t.finishStep) := by
  rcases Nat.lt_or_ge 0xFFE s.pc.toNat with h | h
  · have hf := State.fetch_error (s := s.beginStep) h
    exact .inl ⟨h, by unfold step stepBody; rw [hf]; rfl⟩
  · have hf := State.fetch_ok (s := s.beginStep) h
    refine .inr ?_
    cases hd : decode s.wordAtPc with
    | truncated => exact absurd hd (decode_ne_truncated _)
    | unknown =>
      refine .inl ⟨h, rfl, ?_⟩
      unfold step stepBody; rw [hf]; dsimp only; rw [State.beginStep_wordAtPc, hd]; rfl
    | instr i =>
      obtain ⟨t, ht, -⟩ := exec_cases i s.beginStep
      refine .inr ⟨i, t, ⟨h, hd⟩, ht, ?_⟩
      unfold step stepBody; rw [hf]; dsimp only; rw [State.beginStep_wordAtPc, hd]; dsimp only; rw [ht]; rfl

end Sys2Proof.Machine
end

