-- ==== Sys2Proof/Tests/Slice0.lean ====
section
/-! SUPPORT. Tests: words written out bit by bit from 30_encoding.md R92 and R95, the checks on ill-formed words and images,
one step on a small state for each instruction (expected results from spec/95_test_vectors.md, by number), and for every
statement with hypotheses a state that meets them all. -/

namespace Sys2Proof.Machine

/-- The outcome is a next state that passes a check. -/
def nextIs (o : Host.Outcome State Fault Refusal) (check : State → Bool) : Bool :=
  match o with
  | .next t => check t
  | .fault _ => false
  | .refused _ => false

/-- The reset state after some changes, with a word placed at PC. -/
def start (w : Nat) (changes : List (State → State)) : State :=
  (changes.foldl (fun s change => change s) State.reset).withFetchWord 16 w

/-- One step from such a state passes a check. -/
def stepIs (w : Nat) (changes : List (State → State)) (check : State → Bool) : Bool := nextIs (step (start w changes)) check

def withV (x : Nat) (b : Byte) (s : State) : State := s.setV (Fin.ofNat 16 x) b
def withI (a : Addr) (s : State) : State := { s with i := a }
def withPc (a : Addr) (s : State) : State := { s with pc := a }
def withSp (k : BitVec 4) (s : State) : State := { s with sp := k }
def withSlot (k : BitVec 4) (a : Addr) (s : State) : State := s.setSlot k a
def withTimers (d t : Byte) (s : State) : State := { s with dt := d, st := t }
def withBytes (a : Nat) (bytes : List Byte) (s : State) : State := { s with mem := s.mem.writeBytes a bytes }
def withCells (cells : List Nat) (s : State) : State := { s with fb := cells.foldl Framebuffer.toggle Framebuffer.clear }
def withKeys (k : BitVec 16) (s : State) : State := s.driveKeys [k]
def withRnd (b : Byte) (s : State) : State := s.driveRnd [b]

/-- Exactly these cells of the screen are 1. -/
def cellsAre (cells : List Nat) (t : State) : Bool := t.fb == cells.foldl Framebuffer.toggle Framebuffer.clear

/-- `count` registers from V0 with the values 0x10 + j (spec/95_test_vectors.md V120). -/
def withRamp (s : State) : State := { s with v := Vector.ofFn fun j => BitVec.ofNat 8 (0x10 + j.val) }

/-! ### Decoding: words written out from the patterns of R95 (fields op, x, y, n, kk, nnn of R91) -/

theorem test_decode_cls : decode 0b0000_0000_1110_0000 = .instr (.cls) := by decide
theorem test_decode_ret : decode 0b0000_0000_1110_1110 = .instr (.ret) := by decide
theorem test_decode_jp : decode 0b0001_1010_1011_1100 = .instr (.jp 0xABC) := by decide
theorem test_decode_call : decode 0b0010_0010_0001_0000 = .instr (.call 0x210) := by decide
theorem test_decode_seImm : decode 0b0011_0011_0010_1010 = .instr (.seImm 3 0x2A) := by decide
theorem test_decode_sneImm : decode 0b0100_0101_1000_0001 = .instr (.sneImm 5 0x81) := by decide
theorem test_decode_seReg : decode 0b0101_0001_0010_0000 = .instr (.seReg 1 2) := by decide
theorem test_decode_sneReg : decode 0b1001_0001_0010_0000 = .instr (.sneReg 1 2) := by decide
theorem test_decode_ldImm : decode 0b0110_1010_0000_0101 = .instr (.ldImm 10 0x05) := by decide
theorem test_decode_addImm : decode 0b0111_1111_0000_0001 = .instr (.addImm 15 0x01) := by decide
theorem test_decode_ldReg : decode 0b1000_0001_0010_0000 = .instr (.ldReg 1 2) := by decide
theorem test_decode_orReg : decode 0b1000_0001_0010_0001 = .instr (.orReg 1 2) := by decide
theorem test_decode_andReg : decode 0b1000_0001_0010_0010 = .instr (.andReg 1 2) := by decide
theorem test_decode_xorReg : decode 0b1000_0001_0010_0011 = .instr (.xorReg 1 2) := by decide
theorem test_decode_addReg : decode 0b1000_0001_0010_0100 = .instr (.addReg 1 2) := by decide
theorem test_decode_sub : decode 0b1000_0001_0010_0101 = .instr (.sub 1 2) := by decide
theorem test_decode_shr : decode 0b1000_0001_0010_0110 = .instr (.shr 1 2) := by decide
theorem test_decode_subn : decode 0b1000_0001_0010_0111 = .instr (.subn 1 2) := by decide
theorem test_decode_shl : decode 0b1000_0001_0010_1110 = .instr (.shl 1 2) := by decide
theorem test_decode_ldI : decode 0b1010_0011_0000_0001 = .instr (.ldI 0x301) := by decide
theorem test_decode_jpV0 : decode 0b1011_0011_0000_0001 = .instr (.jpV0 0x301) := by decide
theorem test_decode_rnd : decode 0b1100_0011_0000_1111 = .instr (.rnd 3 0x0F) := by decide
theorem test_decode_drw : decode 0b1101_0001_0010_1111 = .instr (.drw 1 2 15) := by decide
theorem test_decode_skp : decode 0b1110_0101_1001_1110 = .instr (.skp 5) := by decide
theorem test_decode_sknp : decode 0b1110_0101_1010_0001 = .instr (.sknp 5) := by decide
theorem test_decode_ldVxDt : decode 0b1111_0011_0000_0111 = .instr (.ldVxDt 3) := by decide
theorem test_decode_ldVxK : decode 0b1111_0011_0000_1010 = .instr (.ldVxK 3) := by decide
theorem test_decode_ldDtVx : decode 0b1111_0010_0001_0101 = .instr (.ldDtVx 2) := by decide
theorem test_decode_ldStVx : decode 0b1111_0010_0001_1000 = .instr (.ldStVx 2) := by decide
theorem test_decode_addI : decode 0b1111_0010_0001_1110 = .instr (.addI 2) := by decide
theorem test_decode_ldF : decode 0b1111_0010_0010_1001 = .instr (.ldF 2) := by decide
theorem test_decode_ldB : decode 0b1111_0010_0011_0011 = .instr (.ldB 2) := by decide
theorem test_decode_storeRegs : decode 0b1111_0010_0101_0101 = .instr (.storeRegs 2) := by decide
theorem test_decode_loadRegs : decode 0b1111_0010_0110_0101 = .instr (.loadRegs 2) := by decide

/-- V218: opcodes of every family that are Unknown. -/
theorem test_decode_unknown : [0x0000, 0x00E1, 0x00EF, 0x00FF, 0x0123, 0x5001, 0x9ABF, 0x800F, 0xE09D, 0xE1A2, 0xF000, 0xF066,
    0xF075, 0xF085, 0xFFFF].all (fun w => decode w == .unknown) = true := by decide

/-- R90: bytes are decoded two at a time, the rest is left, and one byte is no opcode. -/
theorem test_decodeBytes : decodeBytes [0x12, 0x34, 0x56] = (.instr (.jp 0x234), [0x56]) ∧
    decodeBytes [0x12] = (.truncated, [0x12]) := by decide

/-! ### The checks on raw data: an ill-formed word of each family with a secondary field, and an image one byte too long -/

theorem test_opcodeMap_has_34_rows : opcodeMap.length = 34 := by decide

/-- R95: no two rows of the opcode map share a word: somewhere both masks look, the patterns differ. -/
theorem test_opcodeMap_rows_disjoint :
    opcodeMap.Pairwise (fun r q => r.mask &&& q.mask &&& (r.pattern ^^^ q.pattern) ≠ 0) := by decide

theorem test_wellFormed_refuses_family_0 : Opcode.wellFormed 0x00E1 = false := by decide
theorem test_wellFormed_refuses_family_5 : Opcode.wellFormed 0x5121 = false := by decide
theorem test_wellFormed_refuses_family_8 : Opcode.wellFormed 0x8128 = false := by decide
theorem test_wellFormed_refuses_family_9 : Opcode.wellFormed 0x9ABF = false := by decide
theorem test_wellFormed_refuses_family_E : Opcode.wellFormed 0xE59F = false := by decide
theorem test_wellFormed_refuses_family_F : Opcode.wellFormed 0xF066 = false := by decide
theorem test_wellFormed_admits : [0x00E0, 0x5120, 0x812E, 0x9AB0, 0xE5A1, 0xF065].all Opcode.wellFormed = true := by decide

theorem test_image_too_long : Image.wellFormed (List.replicate 3585 0) = false := by
  unfold Image.wellFormed; rw [List.length_replicate]; decide
theorem test_image_longest : Image.wellFormed (List.replicate 3584 0) = true := by
  unfold Image.wellFormed; rw [List.length_replicate]; decide

/-! ### One step of each instruction; V-numbers are those of spec/95_test_vectors.md -/

/-- V167: the screen is cleared and VF kept. -/
theorem test_cls : stepIs 0x00E0 [withCells [0, 5, 2047], withV 15 1] (fun t => cellsAre [] t && t.getV 15 == 1 && t.pc == 0x202) = true := by decide
/-- V7. -/
theorem test_ret : stepIs 0x00EE [withPc 0x212, withSp 1, withSlot 1 0x204] (fun t => t.pc == 0x206 && t.sp == 0 && t.getSlot 1 == 0x204) = true := by decide
/-- V8. -/
theorem test_ret_underflow : stepIs 0x00EE [withPc 0x212, withSlot 0 0x300, withTimers 5 2] (fun t => t.pc == 0x212 && t.sp == 0 && t.dt == 5 && t.result == some .stackUnderflow) = true := by decide
/-- V2: a jump to itself, and the tick. -/
theorem test_jp : stepIs 0x1200 [withTimers 0xFF 1] (fun t => t.pc == 0x200 && t.dt == 0xFE && t.st == 0) = true := by decide
/-- V5: the deepest call. -/
theorem test_call : stepIs 0x2300 [withPc 0x2F0, withSp 14] (fun t => t.sp == 15 && t.getSlot 15 == 0x2F0 && t.pc == 0x300) = true := by decide
/-- V6. -/
theorem test_call_overflow : stepIs 0x2300 [withPc 0x2F0, withSp 15, withSlot 15 0x222, withTimers 5 0] (fun t => t.sp == 15 && t.getSlot 15 == 0x222 && t.pc == 0x2F0 && t.dt == 5 && t.result == some .stackOverflow) = true := by decide
/-- V11: not cut to 12 bits. -/
theorem test_jpV0 : stepIs 0xBFFF [withV 0 0xFF] (fun t => t.pc == 0x10FE) = true := by decide
/-- V20. -/
theorem test_seImm : stepIs 0x332A [withV 3 0x2A] (fun t => t.pc == 0x204) = true := by decide
/-- V32: a skip past the end of memory. -/
theorem test_seImm_top : stepIs 0x3000 [withPc 0xFFE] (fun t => t.pc == 0x1002) = true := by decide
/-- V23. -/
theorem test_sneImm : stepIs 0x432A [withV 3 0x2A] (fun t => t.pc == 0x202) = true := by decide
/-- V24. -/
theorem test_sneImm_skips : stepIs 0x432A [withV 3 0] (fun t => t.pc == 0x204) = true := by decide
/-- V26. -/
theorem test_seReg : stepIs 0x5120 [withV 1 7, withV 2 8] (fun t => t.pc == 0x202) = true := by decide
/-- V25. -/
theorem test_seReg_skips : stepIs 0x5120 [withV 1 7, withV 2 7] (fun t => t.pc == 0x204) = true := by decide
/-- V29. -/
theorem test_sneReg : stepIs 0x9120 [withV 1 7, withV 2 7] (fun t => t.pc == 0x202) = true := by decide
/-- V28. -/
theorem test_sneReg_skips : stepIs 0x9120 [withV 1 7, withV 2 8] (fun t => t.pc == 0x204) = true := by decide
/-- V40. -/
theorem test_ldImm : stepIs 0x6A05 [] (fun t => t.getV 10 == 5 && t.pc == 0x202) = true := by decide
/-- V43: wraps, and VF is kept. -/
theorem test_addImm : stepIs 0x7102 [withV 1 0xFF, withV 15 1] (fun t => t.getV 1 == 1 && t.getV 15 == 1 && t.pc == 0x202) = true := by decide
/-- V45. -/
theorem test_addImm_vf : stepIs 0x7F01 [withV 15 0xFF] (fun t => t.getV 15 == 0) = true := by decide
/-- V46. -/
theorem test_ldReg : stepIs 0x8120 [withV 2 0x33] (fun t => t.getV 1 == 0x33 && t.getV 2 == 0x33 && t.pc == 0x202) = true := by decide
/-- V47. -/
theorem test_orReg : stepIs 0x8121 [withV 1 0xF0, withV 2 0x0F, withV 15 1] (fun t => t.getV 1 == 0xFF && t.getV 15 == 1) = true := by decide
/-- V48. -/
theorem test_andReg : stepIs 0x8122 [withV 1 0xF0, withV 2 0x3C, withV 15 1] (fun t => t.getV 1 == 0x30 && t.getV 15 == 1) = true := by decide
/-- V49. -/
theorem test_xorReg : stepIs 0x8123 [withV 1 0xF0, withV 2 0x3C, withV 15 1] (fun t => t.getV 1 == 0xCC && t.getV 15 == 1) = true := by decide
/-- T2. -/
theorem test_addReg : stepIs 0x8124 [withV 1 0xFF, withV 2 2] (fun t => t.getV 1 == 1 && t.getV 15 == 1) = true := by decide
/-- V55: the flag wins over the sum. -/
theorem test_addReg_vf : stepIs 0x8F14 [withV 15 0xF0, withV 1 0x20] (fun t => t.getV 15 == 1 && t.getV 1 == 0x20) = true := by decide
/-- T3. -/
theorem test_sub : stepIs 0x8125 [withV 1 5, withV 2 10] (fun t => t.getV 1 == 0xFB && t.getV 15 == 0) = true := by decide
/-- V60. -/
theorem test_sub_equal : stepIs 0x8125 [withV 1 7, withV 2 7, withV 15 1] (fun t => t.getV 1 == 0 && t.getV 15 == 0) = true := by decide
/-- V71: V2 is ignored. -/
theorem test_shr : stepIs 0x8126 [withV 1 0xFE, withV 2 1, withV 15 1] (fun t => t.getV 1 == 0x7F && t.getV 2 == 1 && t.getV 15 == 0) = true := by decide
/-- V73. -/
theorem test_shr_vf : stepIs 0x8F06 [withV 15 2] (fun t => t.getV 15 == 0) = true := by decide
/-- V75. -/
theorem test_subn : stepIs 0x8127 [withV 1 10, withV 2 5] (fun t => t.getV 1 == 0xFB && t.getV 15 == 0) = true := by decide
/-- V76. -/
theorem test_subn_equal : stepIs 0x8127 [withV 1 7, withV 2 7] (fun t => t.getV 1 == 0 && t.getV 15 == 1) = true := by decide
/-- V82: the flag is 0 or 1. -/
theorem test_shl : stepIs 0x810E [withV 1 0x80] (fun t => t.getV 1 == 0 && t.getV 15 == 1) = true := by decide
/-- V85. -/
theorem test_shl_ignores_y : stepIs 0x812E [withV 1 0x40, withV 2 0xFF] (fun t => t.getV 1 == 0x80 && t.getV 2 == 0xFF && t.getV 15 == 0) = true := by decide
/-- V100. -/
theorem test_ldI : stepIs 0xA300 [withI 0xFFFF] (fun t => t.i == 0x300 && t.pc == 0x202) = true := by decide
/-- V103: no flag, no fault. -/
theorem test_addI : stepIs 0xF21E [withI 0xFFF, withV 2 1, withV 15 5] (fun t => t.i == 0x1000 && t.getV 15 == 5 && t.result == none) = true := by decide
/-- V106. -/
theorem test_addI_wraps : stepIs 0xF21E [withI 0xFF80, withV 2 0xFF] (fun t => t.i == 0x7F) = true := by decide
/-- V109. -/
theorem test_ldF : stepIs 0xF229 [withV 2 0x0A] (fun t => t.i == 0x82) = true := by decide
/-- V113. -/
theorem test_ldF_unmasked : stepIs 0xF229 [withV 2 0xFF] (fun t => t.i == 0x54B) = true := by decide
/-- V116: the last three bytes of memory. -/
theorem test_ldB : stepIs 0xF033 [withI 0xFFD, withV 0 123] (fun t => t.mem.read 0xFFD == 1 && t.mem.read 0xFFE == 2 && t.mem.read 0xFFF == 3 && t.pc == 0x202) = true := by decide
/-- V117. -/
theorem test_ldB_out : stepIs 0xF033 [withI 0xFFE, withV 0 123, withBytes 0xFFE [0xEE, 0xEE]] (fun t => t.mem.read 0xFFE == 0xEE && t.pc == 0x200 && t.result == some (.memoryOutOfBounds 0x1000)) = true := by decide
/-- V120. -/
theorem test_storeRegs : stepIs 0xF255 [withRamp, withI 0x400, withBytes 0x403 [0xEE]] (fun t => t.mem.read 0x400 == 0x10 && t.mem.read 0x402 == 0x12 && t.mem.read 0x403 == 0xEE && t.i == 0x400) = true := by decide
/-- V124: nothing is written. -/
theorem test_storeRegs_out : stepIs 0xFF55 [withRamp, withI 0xFF1] (fun t => t.mem.read 0xFF1 == 0 && t.result == some (.memoryOutOfBounds 0x1000)) = true := by decide
/-- V128. -/
theorem test_loadRegs : stepIs 0xF265 [withRamp, withI 0x300, withBytes 0x300 [0xA0, 0xA1, 0xA2, 0xA3]] (fun t => t.getV 0 == 0xA0 && t.getV 2 == 0xA2 && t.getV 3 == 0x13 && t.i == 0x300) = true := by decide
/-- V132. -/
theorem test_loadRegs_font : stepIs 0xF065 [withI 0x50] (fun t => t.getV 0 == 0xF0) = true := by decide
/-- V140. -/
theorem test_rnd : stepIs 0xC30F [withV 3 0x55, withV 15 9, withRnd 0xB7] (fun t => t.getV 3 == 7 && t.getV 15 == 9 && t.rndIn.taken == 1) = true := by decide
/-- V150: both axes wrap. -/
theorem test_drw_wraps : stepIs 0xD011 [withV 0 63, withV 1 31, withI 0x300, withBytes 0x300 [0xC0]] (fun t => cellsAre [1984, 2047] t && t.getV 15 == 0 && t.pc == 0x202) = true := by decide
/-- V160. -/
theorem test_drw_collides : stepIs 0xD011 [withI 0x300, withBytes 0x300 [0xF0], withCells [3, 4]] (fun t => cellsAre [0, 1, 2, 4] t && t.getV 15 == 1) = true := by decide
/-- V170. -/
theorem test_skp : stepIs 0xE59E [withV 5 7, withKeys 0x0080, withTimers 3 0] (fun t => t.pc == 0x204 && t.dt == 2) = true := by decide
/-- V178. -/
theorem test_skp_out : stepIs 0xE59E [withV 5 0x10, withKeys 0xFFFF, withTimers 3 0] (fun t => t.pc == 0x200 && t.dt == 3 && t.result == some (.keyIndexOutOfRange 0x10)) = true := by decide
/-- V177. -/
theorem test_sknp : stepIs 0xE5A1 [withV 5 7, withKeys 0x0080] (fun t => t.pc == 0x202) = true := by decide
/-- V176. -/
theorem test_sknp_skips : stepIs 0xE5A1 [withV 5 7, withKeys 0] (fun t => t.pc == 0x204) = true := by decide
/-- V190: DT before the tick. -/
theorem test_ldVxDt : stepIs 0xF307 [withV 3 0xEE, withTimers 5 0] (fun t => t.getV 3 == 5 && t.dt == 4) = true := by decide
/-- V182. -/
theorem test_ldVxK_waits : stepIs 0xF30A [withV 3 0x55, withTimers 3 1, withKeys 0] (fun t => t.pc == 0x200 && t.getV 3 == 0x55 && t.dt == 2 && t.st == 0 && t.result == none) = true := by decide
/-- V183: the lowest key. -/
theorem test_ldVxK : stepIs 0xF30A [withV 3 0x55, withKeys 0x0280] (fun t => t.getV 3 == 7 && t.pc == 0x202) = true := by decide
/-- V193. -/
theorem test_ldDtVx : stepIs 0xF215 [withV 2 0x3C, withTimers 9 7] (fun t => t.dt == 0x3B && t.st == 6) = true := by decide
/-- V195. -/
theorem test_ldStVx : stepIs 0xF218 [withV 2 2, withTimers 9 7] (fun t => t.st == 1 && t.dt == 8) = true := by decide
/-- V199. -/
theorem test_unknown : stepIs 0x0000 [withTimers 5 2] (fun t => t.pc == 0x202 && t.dt == 4 && t.st == 1 && t.result == some (.unhandledOpcode 0)) = true := by decide
/-- V210. -/
theorem test_fetch_last_word : stepIs 0x6A05 [withPc 0xFFE, withTimers 5 0] (fun t => t.getV 10 == 5 && t.pc == 0x1000 && t.dt == 4) = true := by decide

/-- V211 and V213: the fetch beyond memory. -/
theorem test_fetch_out : nextIs (step (withPc 0xFFF State.reset)) (fun t => t.result == some (.memoryOutOfBounds 0x1000)) = true ∧
    nextIs (step (withPc 0x10FE State.reset)) (fun t => t.result == some (.memoryOutOfBounds 0x10FE)) = true := by decide

/-! ### The ports, the loader and the listing -/

/-- V213 on the ports: code 4 with the address (60_exceptions.md R220). -/
theorem test_ports : nextIs (step (withPc 0x10FE State.reset)) (fun t => t.resultCode == 4 && t.resultInfo == 0x10FE) = true := by
  decide

/-- The image of P1 lies at 0x200, high byte first. -/
theorem test_loadImage :
    (State.reset.loadImage [0x60, 0x00, 0x61, 0x05]).map (fun t => (t.mem.read 0x200, t.mem.read 0x203, t.fetch.toOption)) =
      some (0x60, 0x05, some 0x6000) := by decide

/-- Reset clears what a program left (R250), here a register and a byte of memory. -/
theorem test_assertReset : (withBytes 0x300 [7] (withV 3 9 State.reset)).assertReset = State.reset := by decide

/-- The texts of 30_encoding.md R99 as the programs of spec/95_test_vectors.md spell them. -/
theorem test_listing : [0x6000, 0x8014, 0x120C, 0xF265, 0xF033, 0x00EE, 0xF00A].map listing =
    ["LD V0, 0x00", "ADD V0, V1", "JP 0x20C", "LD V2, [I]", "LD B, V0", "RET", "LD V0, K"] := by decide


/-! ### Witnesses: for every statement with hypotheses, states and operands that meet all of them together -/

/-- EncodeOfDecodeIsTheWord. -/
theorem test_witness_EncodeOfDecode : decode 0x8126 = .instr (.shr 1 2) ∧ decode 0xFF65 = .instr (.loadRegs 15) := by decide

/-- DecoderFollowsTheOpcodeMap: a row and a word it admits, one it does not, and a word that no row admits. -/
theorem test_witness_DecoderFollowsTheOpcodeMap :
    (⟨"SHR_Vx", 0xF00F, 0x8006⟩ : OpcodeRow) ∈ opcodeMap ∧ (⟨"SHR_Vx", 0xF00F, 0x8006⟩ : OpcodeRow).admits 0x8126 = true ∧
    (⟨"SHR_Vx", 0xF00F, 0x8006⟩ : OpcodeRow).admits 0x8127 = false ∧ ∀ r ∈ opcodeMap, r.admits 0x8128 = false := by decide

/-- A state whose word at PC = `a` is `w`. -/
def at_ (a : Addr) (w : Nat) (s : State) : State := (withPc a s).withFetchWord 16 w

/-- Deciding that a state runs an instruction. -/
theorem runs_of {s : State} {i : Instr} (h : (decide (s.pc.toNat ≤ 0xFFE) && decode s.wordAtPc == .instr i) = true) :
    s.Runs i := by
  simp only [Bool.and_eq_true, decide_eq_true_eq, beq_iff_eq] at h; exact h

/-- StepRunsTheDecodedInstruction: a committed step with the timers at 1 and at 0, at the last address a fetch reaches. -/
theorem test_witness_StepRuns_committed : (at_ 0xFFE 0x6A05 (withTimers 1 0 State.reset)).Runs (.ldImm 10 5) ∧
    ∃ t, exec (.ldImm 10 5) { at_ 0xFFE 0x6A05 (withTimers 1 0 State.reset) with result := none } = .next t ∧
      t.aborted = false := ⟨runs_of (by decide), _, rfl, by decide⟩

/-- StepRunsTheDecodedInstruction: an aborted step. -/
theorem test_witness_StepRuns_aborted : (at_ 0x200 0x00EE (withTimers 5 2 State.reset)).Runs .ret ∧
    ∃ t, exec .ret { at_ 0x200 0x00EE (withTimers 5 2 State.reset) with result := none } = .next t ∧ t.aborted = true :=
  ⟨runs_of (by decide), _, rfl, by decide⟩

/-- UnknownOpcodeStep: at the last address a fetch reaches, timers at 0 and not at 0. -/
theorem test_witness_UnknownOpcodeStep : (at_ 0xFFE 0x8128 (withTimers 0 7 State.reset)).pc.toNat ≤ 0xFFE ∧
    decode (at_ 0xFFE 0x8128 (withTimers 0 7 State.reset)).wordAtPc = .unknown := by decide

/-- FetchBeyondMemoryAborts: both clauses at their first and last address. -/
theorem test_witness_FetchBeyondMemoryAborts : 0xFFE < (withPc 0xFFF State.reset).pc.toNat ∧
    0xFFE < (withPc 0x1000 State.reset).pc.toNat ∧ 0xFFE < (withPc 0xFFFF State.reset).pc.toNat := by decide

/-- AbortedStepChangesNothing and AbortingFaultRepeatsForEver: an instruction's fault, and one of the fetch. -/
theorem test_witness_AbortedStep :
    (∃ t, step (at_ 0x212 0x00EE State.reset) = .next t ∧ t.result = some .stackUnderflow ∧ Fault.stackUnderflow.aborts = true) ∧
    ∃ t, step (withPc 0xFFF State.reset) = .next t ∧ t.result = some (.memoryOutOfBounds 0x1000) ∧
      (Fault.memoryOutOfBounds 0x1000).aborts = true :=
  ⟨⟨_, rfl, by decide, rfl⟩, _, rfl, by decide, rfl⟩

/-- FaultsAreReportedExactlyWhen: UnhandledOpcode at PC = 0xFFE. -/
theorem test_witness_Faults_unhandled : ∃ t, step (at_ 0xFFE 0x8128 State.reset) = .next t ∧
    t.result = some (.unhandledOpcode 0x8128) := ⟨_, rfl, by decide⟩

/-- FaultsAreReportedExactlyWhen: the two stack faults at the ends of SP. -/
theorem test_witness_Faults_stack :
    (∃ t, step (at_ 0x200 0x2300 (withSp 15 State.reset)) = .next t ∧ t.result = some .stackOverflow) ∧
    (∃ t, step (at_ 0x200 0x2300 (withSp 14 State.reset)) = .next t ∧ t.result = none) ∧
    (∃ t, step (at_ 0x200 0x00EE State.reset) = .next t ∧ t.result = some .stackUnderflow) ∧
    ∃ t, step (at_ 0x200 0x00EE (withSp 1 State.reset)) = .next t ∧ t.result = none :=
  ⟨⟨_, rfl, by decide⟩, ⟨_, rfl, by decide⟩, ⟨_, rfl, by decide⟩, _, rfl, by decide⟩

/-- FaultsAreReportedExactlyWhen: the fetch at 0xFFF, a block whose first byte is in memory, a block that lies outside, and the
last block that fits. -/
theorem test_witness_Faults_memory :
    (∃ t, step (withPc 0xFFF State.reset) = .next t ∧ t.result = some (.memoryOutOfBounds 0x1000)) ∧
    (∃ t, step (at_ 0x200 0xF033 (withI 0xFFE State.reset)) = .next t ∧ t.result = some (.memoryOutOfBounds 0x1000)) ∧
    (∃ t, step (at_ 0x200 0xD011 (withI 0x1001 State.reset)) = .next t ∧ t.result = some (.memoryOutOfBounds 0x1001)) ∧
    ∃ t, step (at_ 0x200 0xF033 (withI 0xFFD State.reset)) = .next t ∧ t.result = none :=
  ⟨⟨_, rfl, by decide⟩, ⟨_, rfl, by decide⟩, ⟨_, rfl, by decide⟩, _, rfl, by decide⟩

/-- FaultsAreReportedExactlyWhen: the first key number out of range, and the last in range. -/
theorem test_witness_Faults_key :
    (∃ t, step (at_ 0x200 0xE59E (withV 5 0x10 State.reset)) = .next t ∧ t.result = some (.keyIndexOutOfRange 0x10)) ∧
    (∃ t, step (at_ 0x200 0xE5A1 (withV 5 0xFF State.reset)) = .next t ∧ t.result = some (.keyIndexOutOfRange 0xFF)) ∧
    ∃ t, step (at_ 0x200 0xE59E (withKeys 0 (withV 5 0x0F State.reset))) = .next t ∧ t.result = none :=
  ⟨⟨_, rfl, by decide⟩, ⟨_, rfl, by decide⟩, _, rfl, by decide⟩

/-- CommittedStepTicksTheTimersOnce: a committed step that writes no timer. -/
theorem test_witness_CommittedStepTicks : ∃ t, step (at_ 0x200 0x6000 (withTimers 1 0 State.reset)) = .next t ∧
    t.aborted = false ∧ (∀ x, ¬ (at_ 0x200 0x6000 (withTimers 1 0 State.reset)).Runs (.ldDtVx x)) ∧
    ∀ x, ¬ (at_ 0x200 0x6000 (withTimers 1 0 State.reset)).Runs (.ldStVx x) := by
  have h : (at_ 0x200 0x6000 (withTimers 1 0 State.reset)).Runs (.ldImm 0 0) := runs_of (by decide)
  exact ⟨_, rfl, by decide, fun x hx => absurd (State.Runs.unique h hx) (by simp),
    fun x hx => absurd (State.Runs.unique h hx) (by simp)⟩

/-- TimerInstructionsMeetTheTick: each of its three hypotheses, the written value 0 and 1. -/
theorem test_witness_TimerInstructions : (at_ 0x200 0xF307 (withTimers 1 0 State.reset)).Runs (.ldVxDt 3) ∧
    (at_ 0x200 0xF315 (withV 3 0 State.reset)).Runs (.ldDtVx 3) ∧ (at_ 0x200 0xF318 (withV 3 1 State.reset)).Runs (.ldStVx 3) :=
  ⟨runs_of (by decide), runs_of (by decide), runs_of (by decide)⟩

/-- ResultPortsShowCodeAndInformation: a result of each kind. -/
theorem test_witness_ResultPorts : State.reset.result = none ∧
    ({ State.reset with result := some (.unhandledOpcode 0xFFFF) } : State).result = some (.unhandledOpcode 0xFFFF) ∧
    ({ State.reset with result := some .stackOverflow } : State).result = some .stackOverflow ∧
    ({ State.reset with result := some .stackUnderflow } : State).result = some .stackUnderflow ∧
    ({ State.reset with result := some (.memoryOutOfBounds 0xFFFF) } : State).result = some (.memoryOutOfBounds 0xFFFF) ∧
    ({ State.reset with result := some (.keyIndexOutOfRange 0xFF) } : State).result = some (.keyIndexOutOfRange 0xFF) :=
  ⟨rfl, rfl, rfl, rfl, rfl, rfl⟩

/-- RegistersChangeOnlyAsDestinations: a destination, and VF as flag. -/
theorem test_witness_RegistersChange :
    (∃ t, exec (.ldImm 3 7) State.reset = .next t ∧ t.getV 3 ≠ State.reset.getV 3) ∧
    ∃ t, exec (.subn 1 2) State.reset = .next t ∧ t.getV 15 ≠ State.reset.getV 15 := ⟨⟨_, rfl, by decide⟩, _, rfl, by decide⟩

/-- MemoryChangesOnlyInTheStoredBlock: Fx33 at the end of memory, and Fx55. -/
theorem test_witness_MemoryChanges :
    ((at_ 0x200 0xF033 (withV 0 255 (withI 0xFFD State.reset))).mem.wf = true ∧
      ∃ t, step (at_ 0x200 0xF033 (withV 0 255 (withI 0xFFD State.reset))) = .next t ∧
        t.mem.read 0xFFF ≠ (at_ 0x200 0xF033 (withV 0 255 (withI 0xFFD State.reset))).mem.read 0xFFF) ∧
    (at_ 0x200 0xF155 (withRamp (withI 0x400 State.reset))).mem.wf = true ∧
      ∃ t, step (at_ 0x200 0xF155 (withRamp (withI 0x400 State.reset))) = .next t ∧
        t.mem.read 0x401 ≠ (at_ 0x200 0xF155 (withRamp (withI 0x400 State.reset))).mem.read 0x401 :=
  ⟨⟨by decide, _, rfl, by decide⟩, by decide, _, rfl, by decide⟩

/-- StackChangesOnlyInCallAndRet: SP from 14 to 15 with slot 15, and from 1 to 0. -/
theorem test_witness_StackChanges :
    (∃ t, step (at_ 0x200 0x2300 (withSp 14 State.reset)) = .next t ∧ t.sp ≠ (at_ 0x200 0x2300 (withSp 14 State.reset)).sp ∧
      t.getSlot 15 ≠ (at_ 0x200 0x2300 (withSp 14 State.reset)).getSlot 15) ∧
    ∃ t, step (at_ 0x200 0x00EE (withSp 1 State.reset)) = .next t ∧ t.sp ≠ (at_ 0x200 0x00EE (withSp 1 State.reset)).sp :=
  ⟨⟨_, rfl, by decide, by decide⟩, _, rfl, by decide⟩

/-- FramebufferChangesOnlyInClsAndDrw: the last cell, by each. -/
theorem test_witness_FramebufferChanges :
    (∃ t, step (at_ 0x200 0x00E0 (withCells [2047] State.reset)) = .next t ∧
      t.fb.cell 2047 ≠ (at_ 0x200 0x00E0 (withCells [2047] State.reset)).fb.cell 2047) ∧
    ∃ t, step (at_ 0x200 0xD011 (withV 0 63 (withV 1 31 (withI 0x50 State.reset)))) = .next t ∧
      t.fb.cell 2047 ≠ (at_ 0x200 0xD011 (withV 0 63 (withV 1 31 (withI 0x50 State.reset)))).fb.cell 2047 :=
  ⟨⟨_, rfl, by decide⟩, _, rfl, by decide⟩

/-- IndexRegisterWriters: I changes by each of the three. -/
theorem test_witness_IndexRegisterWriters :
    (∃ t, step (at_ 0x200 0xAFFF State.reset) = .next t ∧ t.i ≠ (at_ 0x200 0xAFFF State.reset).i) ∧
    (∃ t, step (at_ 0x200 0xF21E (withV 2 1 State.reset)) = .next t ∧ t.i ≠ (at_ 0x200 0xF21E (withV 2 1 State.reset)).i) ∧
    ∃ t, step (at_ 0x200 0xF229 State.reset) = .next t ∧ t.i ≠ (at_ 0x200 0xF229 State.reset).i :=
  ⟨⟨_, rfl, by decide⟩, ⟨_, rfl, by decide⟩, _, rfl, by decide⟩

/-- KeypadIsReadOnlyByKeyInstructions. -/
theorem test_witness_Keypad : ∀ x, Instr.ldVxDt 3 ≠ .skp x ∧ Instr.ldVxDt 3 ≠ .sknp x ∧ Instr.ldVxDt 3 ≠ .ldVxK x := by decide

/-- RandomByteIsTakenOnlyByRnd. -/
theorem test_witness_Random : ∀ x kk, Instr.ldImm 3 0xFF ≠ .rnd x kk := fun _ _ => by simp

/-- ResetValues: both sides of the font, with what lies there and at its first and last byte. -/
theorem test_witness_ResetValues : (0x04F < 0x050 ∧ State.reset.mem.read 0x04F = 0) ∧ (0x09F < 0x0A0 ∧ State.reset.mem.read 0x0A0 = 0) ∧
    (0 < 16 ∧ 0 < 5 ∧ State.reset.mem.read 0x050 = 0xF0) ∧ 15 < 16 ∧ 4 < 5 ∧ State.reset.mem.read 0x09F = 0x80 := by decide

/-- LoaderPlacesTheImage: the shortest image that is refused, and the longest that is loaded. -/
theorem test_witness_Loader : State.reset.mem.wf = true ∧ 3584 < (List.replicate 3585 (0 : Byte)).length ∧
    (List.replicate 3584 (0 : Byte)).length ≤ 3584 := by
  rw [List.length_replicate, List.length_replicate]; decide

/-- StepKeepsMemoryCanonical: a step that stores. -/
theorem test_witness_StepKeepsMemoryCanonical : (start 0xF033 [withI 0xFFD, withV 0 255]).mem.wf = true ∧
    ∃ t, step (start 0xF033 [withI 0xFFD, withV 0 255]) = .next t := ⟨by decide, _, rfl⟩

/-- StepKeepsTheInvariant: PC at the bound, and a RET to the highest address a CALL can be fetched from. -/
theorem test_witness_StepKeepsTheInvariant :
    ((withPc 0x10FE State.reset).Inv ∧ ∃ t, step (withPc 0x10FE State.reset) = .next t) ∧
    (start 0x00EE [withSp 1, withSlot 1 0xFFE]).Inv ∧ ∃ t, step (start 0x00EE [withSp 1, withSlot 1 0xFFE]) = .next t :=
  ⟨⟨⟨by decide, by decide, by decide⟩, _, rfl⟩, ⟨by decide, by decide, by decide⟩, _, rfl⟩

/-- CanonicalMemoriesWithEqualReadsAreEqual: one memory reached by two orders of writes. -/
theorem test_witness_CanonicalMemories :
    (Memory.write (Memory.write (Memory.write [] 0xFFF 1) 0x50 2) 0x50 0xF0).wf = true ∧ Memory.wf [(0xFFF, 1)] = true ∧
    ∀ a, (Memory.write (Memory.write (Memory.write [] 0xFFF 1) 0x50 2) 0x50 0xF0).read a = Memory.read [(0xFFF, 1)] a :=
  ⟨by decide, by decide, fun _ => rfl⟩

/-- ReturnResult: SP at 1 and at 15. -/
theorem test_witness_ReturnResult : (withSp 1 State.reset).sp ≠ 0 ∧ (withSp 15 State.reset).sp ≠ 0 := by decide

/-- CallResult: SP at 0 and at 14. -/
theorem test_witness_CallResult : State.reset.sp ≠ 15 ∧ (withSp 14 State.reset).sp ≠ 15 := by decide

/-- ReturnUndoesCall: the called routine has moved PC on and changed a register. -/
theorem test_witness_ReturnUndoesCall : (withSp 14 State.reset).sp ≠ 15 ∧
    ∃ t, exec (.call 0x300) (withSp 14 State.reset) = .next t ∧ (withPc 0x304 (withV 3 9 t)).sp = t.sp ∧
      (withPc 0x304 (withV 3 9 t)).stack = t.stack := ⟨by decide, _, rfl, rfl, rfl⟩

/-- StackFaults: each of its two hypotheses. -/
theorem test_witness_StackFaults : (withSp 15 State.reset).sp = 15 ∧ State.reset.sp = 0 := by decide

/-- StoreDecimalDigits: the last block that fits. -/
theorem test_witness_StoreDecimalDigits : (withI 0xFFD State.reset).mem.wf = true ∧ (withI 0xFFD State.reset).i.toNat + 2 ≤ 0xFFF := by
  decide

/-- StoreRegisterBlock and LoadRegisterBlock: one register and all of them, at the last place that fits. -/
theorem test_witness_RegisterBlock : (withI 0xFFF State.reset).mem.wf = true ∧
    (withI 0xFFF State.reset).i.toNat + (0 : Reg).val ≤ 0xFFF ∧ (withI 0xFF0 State.reset).mem.wf = true ∧
    (withI 0xFF0 State.reset).i.toNat + (15 : Reg).val ≤ 0xFFF := by decide

/-- LoadAfterStoreGivesTheRegistersBack. -/
theorem test_witness_LoadAfterStore : (withRamp (withI 0xFF0 State.reset)).mem.wf = true ∧
    (withRamp (withI 0xFF0 State.reset)).i.toNat + (15 : Reg).val ≤ 0xFFF ∧
    ∃ t u, exec (.storeRegs 15) (withRamp (withI 0xFF0 State.reset)) = .next t ∧ exec (.loadRegs 15) t = .next u :=
  ⟨by decide, by decide, _, _, rfl, rfl⟩

/-- StoreIsSeenByTheNextFetch: V133. -/
theorem test_witness_StoreIsSeen : (start 0xF155 [withV 0 0x6A, withV 1 5, withI 0x202]).mem.wf = true ∧ 1 ≤ (1 : Reg).val ∧
    (start 0xF155 [withV 0 0x6A, withV 1 5, withI 0x202]).i.toNat + (1 : Reg).val ≤ 0xFFF ∧
    (start 0xF155 [withV 0 0x6A, withV 1 5, withI 0x202]).i = (start 0xF155 [withV 0 0x6A, withV 1 5, withI 0x202]).pc + 2 ∧
    (start 0xF155 [withV 0 0x6A, withV 1 5, withI 0x202]).Runs (.storeRegs 1) ∧
    ∃ t, step (start 0xF155 [withV 0 0x6A, withV 1 5, withI 0x202]) = .next t :=
  ⟨by decide, by decide, by decide, by decide, runs_of (by decide), _, rfl⟩

/-- BlockFaults: each of the four instructions, first byte inside memory and outside. -/
theorem test_witness_BlockFaults :
    (0 < (Instr.drw 0 1 1).blockLength ∧ 0xFFF < (withI 0x1000 State.reset).i.toNat + (Instr.drw 0 1 1).blockLength - 1) ∧
    (0 < (Instr.ldB 0).blockLength ∧ 0xFFF < (withI 0xFFE State.reset).i.toNat + (Instr.ldB 0).blockLength - 1) ∧
    (0 < (Instr.storeRegs 15).blockLength ∧ 0xFFF < (withI 0xFF1 State.reset).i.toNat + (Instr.storeRegs 15).blockLength - 1) ∧
    (0 < (Instr.loadRegs 0).blockLength ∧ 0xFFF < (withI 0xFFFF State.reset).i.toNat + (Instr.loadRegs 0).blockLength - 1) := by
  decide

/-- RandomByteResult: a draw that the host supplied. -/
theorem test_witness_RandomByteResult : (withRnd 0xB7 State.reset).rndIn = ⟨0xB7 :: [], 0⟩ := rfl

/-- DrawSpriteResult: no rows with I outside memory, and fifteen rows at the last place that fits. -/
theorem test_witness_DrawSpriteResult :
    ((0 : Fin 16).val = 0 ∨ (withI 0xFFFF State.reset).i.toNat + (0 : Fin 16).val - 1 ≤ 0xFFF) ∧
    ((15 : Fin 16).val = 0 ∨ (withI 0xFF1 State.reset).i.toNat + (15 : Fin 16).val - 1 ≤ 0xFFF) := by decide

/-- DrawingTwiceRestoresTheScreen: on a clear screen, with a sprite that has a set bit. -/
theorem test_witness_DrawingTwice : (0 : Reg) ≠ 15 ∧ (1 : Reg) ≠ 15 ∧
    ((1 : Fin 16).val = 0 ∨ (withI 0x50 State.reset).i.toNat + (1 : Fin 16).val - 1 ≤ 0xFFF) ∧
    (∃ t u, exec (.drw 0 1 1) (withI 0x50 State.reset) = .next t ∧ exec (.drw 0 1 1) t = .next u) ∧
    ∀ k < 2048, (withI 0x50 State.reset).fb.cell k = false :=
  ⟨by decide, by decide, by decide, ⟨_, _, rfl, rfl⟩, fun k _ => Framebuffer.cell_clear k⟩

/-- FramebufferPortIsRowMajor: the last cell. -/
theorem test_witness_FramebufferPort : 63 < 64 ∧ 31 < 32 := by decide

/-- JumpResult, SkipOnImmediate, SkipOnRegister and LoadAndAddImmediate: a word of each pattern, at its last values. -/
theorem test_witness_words : Opcode.op 0x1FFF = 0x1 ∧ Opcode.op 0x3FFF = 0x3 ∧ Opcode.op 0x4FFF = 0x4 ∧ Opcode.op 0x5FF0 = 0x5 ∧
    Opcode.op 0x9FFF = 0x9 ∧ Opcode.op 0x6FFF = 0x6 ∧ Opcode.op 0x7FFF = 0x7 := by decide

/-- SkipOnKey at the last key, KeyIndexFaults at the first number that is none. -/
theorem test_witness_KeyNumbers : ((withV 5 0x0F State.reset).getV 5).toNat ≤ 0xF ∧ 0xF < ((withV 5 0x10 State.reset).getV 5).toNat := by
  decide

/-- WaitForKeyResult: no key down, and key 15 as the lowest. -/
theorem test_witness_WaitForKeyResult : (withKeys 0 State.reset).key = 0 ∧ 15 < 16 ∧
    (withKeys 0x8000 State.reset).key.getLsbD 15 = true ∧ ∀ j < 15, (withKeys 0x8000 State.reset).key.getLsbD j = false := by
  decide

end Sys2Proof.Machine
end

/-! SUPPORT. The frame of every instruction and of the step, said once: which parts of the state an instruction may change,
and that a step changes no other part beside PC, the timers and the ports (10_state.md R20 to R31, 40_step_cycle.md R122). -/

namespace Sys2Proof

/-- The parts an instruction that completes may change. The report of one that takes a fault, the timer tick and the use of
the keypad sample are not its own and are not listed. -/
def Instr.parts : Instr → List Machine.Part
  | .cls => [.fb, .pc]
  | .ret => [.pc, .sp]
  | .call _ => [.sp, .stack, .pc]
  | .jp _ | .jpV0 _ | .seImm _ _ | .sneImm _ _ | .seReg _ _ | .sneReg _ _ | .skp _ | .sknp _ => [.pc]
  | .ldImm _ _ | .addImm _ _ | .ldReg _ _ | .orReg _ _ | .andReg _ _ | .xorReg _ _ | .ldVxDt _ | .ldVxK _ | .loadRegs _
  | .addReg _ _ | .sub _ _ | .shr _ _ | .subn _ _ | .shl _ _ => [.regs, .pc]
  | .rnd _ _ => [.regs, .rndIn, .pc]
  | .drw _ _ _ => [.fb, .regs, .pc]
  | .ldI _ | .addI _ | .ldF _ => [.index, .pc]
  | .ldB _ | .storeRegs _ => [.mem, .pc]
  | .ldDtVx _ => [.dt, .pc]
  | .ldStVx _ => [.st, .pc]

end Sys2Proof

namespace Sys2Proof.Machine

/-! ### The algebra of frames -/

theorem Part.same_trans {p : Part} {s t u : State} (h : p.same s t) (h' : p.same t u) : p.same s u := by
  cases p <;> simp_all [Part.same]

theorem ChangesOnly.mono {ps qs : List Part} {s t : State} (h : ChangesOnly ps s t) (hsub : ps ⊆ qs) : ChangesOnly qs s t :=
  fun p hp => h p fun hmem => hp (hsub hmem)

theorem ChangesOnly.trans {ps qs : List Part} {s t u : State} (h : ChangesOnly ps s t) (h' : ChangesOnly qs t u) :
    ChangesOnly (ps ++ qs) s u := fun p hp =>
  Part.same_trans (h p fun hmem => hp (List.mem_append_left _ hmem)) (h' p fun hmem => hp (List.mem_append_right _ hmem))

/-! ### The frame of each operation on the state -/

theorem changesOnly_with_v (s : State) (v : Vector Byte 16) : ChangesOnly [.regs] s { s with v := v } := by
  intro p hp; cases p <;> simp_all [Part.same, State.getSlot]

theorem changesOnly_with_i (s : State) (a : Addr) : ChangesOnly [.index] s { s with i := a } := by
  intro p hp; cases p <;> simp_all [Part.same, State.getV, State.getSlot]

theorem changesOnly_with_pc (s : State) (a : Addr) : ChangesOnly [.pc] s { s with pc := a } := by
  intro p hp; cases p <;> simp_all [Part.same, State.getV, State.getSlot]

theorem changesOnly_with_stack (s : State) (k : Vector Addr 16) : ChangesOnly [.stack] s { s with stack := k } := by
  intro p hp; cases p <;> simp_all [Part.same, State.getV]

theorem changesOnly_with_sp (s : State) (k : BitVec 4) : ChangesOnly [.sp] s { s with sp := k } := by
  intro p hp; cases p <;> simp_all [Part.same, State.getV, State.getSlot]

theorem changesOnly_with_dt (s : State) (b : Byte) : ChangesOnly [.dt] s { s with dt := b } := by
  intro p hp; cases p <;> simp_all [Part.same, State.getV, State.getSlot]

theorem changesOnly_with_st (s : State) (b : Byte) : ChangesOnly [.st] s { s with st := b } := by
  intro p hp; cases p <;> simp_all [Part.same, State.getV, State.getSlot]

theorem changesOnly_with_fb (s : State) (fb : Framebuffer) : ChangesOnly [.fb] s { s with fb := fb } := by
  intro p hp; cases p <;> simp_all [Part.same, State.getV, State.getSlot]

theorem changesOnly_with_mem (s : State) (m : Memory) : ChangesOnly [.mem] s { s with mem := m } := by
  intro p hp; cases p <;> simp_all [Part.same, State.getV, State.getSlot]

theorem changesOnly_with_result (s : State) (r : Option Fault) : ChangesOnly [.result] s { s with result := r } := by
  intro p hp; cases p <;> simp_all [Part.same, State.getV, State.getSlot]

theorem changesOnly_with_rndIn (s : State) (r : InputPort 8) : ChangesOnly [.rndIn] s { s with rndIn := r } := by
  intro p hp; cases p <;> simp_all [Part.same, State.getV, State.getSlot]

/-- RET's two changes at once: the slot it reads is the one the old SP names. -/
theorem changesOnly_with_pc_sp (s : State) (a : Addr) (k : BitVec 4) : ChangesOnly [.pc, .sp] s { s with pc := a, sp := k } := by
  intro p hp; cases p <;> simp_all [Part.same, State.getV, State.getSlot]

theorem changesOnly_setV (s : State) (x : Reg) (b : Byte) : ChangesOnly [.regs] s (s.setV x b) :=
  changesOnly_with_v s _

theorem changesOnly_setVFlag (s : State) (x : Reg) (b flag : Byte) : ChangesOnly [.regs] s (s.setVFlag x b flag) :=
  changesOnly_with_v s _

theorem changesOnly_setSlot (s : State) (k : BitVec 4) (a : Addr) : ChangesOnly [.stack] s (s.setSlot k a) :=
  changesOnly_with_stack s _

theorem changesOnly_skipIf (s : State) (c : Bool) : ChangesOnly [.pc] s (s.skipIf c) := changesOnly_with_pc s _

theorem changesOnly_jumpTo (s : State) (a : Addr) : ChangesOnly [.pc] s (s.jumpTo a) := changesOnly_with_pc s _

theorem changesOnly_keyWait (s : State) (x : Reg) (key : Option Nat) : ChangesOnly [.regs, .pc] s (s.keyWait x key) :=
  (changesOnly_with_v s _).trans (changesOnly_with_pc _ _)

/-- Falling through adds PC to what has changed. -/
theorem ChangesOnly.fallThrough {ps : List Part} {s t : State} (h : ChangesOnly ps s t) :
    ChangesOnly (ps ++ [.pc]) s t.fallThrough := h.trans (changesOnly_with_pc t _)

theorem changesOnly_beginStep (s : State) : ChangesOnly [.result] s s.beginStep := changesOnly_with_result s _

theorem changesOnly_finishStep (s : State) : ChangesOnly [.dt, .st, .keyIn] s s.finishStep := by
  intro p hp; cases p <;> simp_all [Part.same]

/-! ### The frame of every instruction -/

/-- The outcome is an aborting fault taken in `s`, which changes nothing but the report (60_exceptions.md R228), or it is a
next state with the property. -/
inductive AbortsOr (s : State) (P : State → Prop) : Host.Outcome State Fault Refusal → Prop
  | abort {f : Fault} : f.aborts = true → AbortsOr s P (.next { s with result := some f })
  | next {t : State} : P t → AbortsOr s P (.next t)

/-- An instruction that takes a fault on a condition. -/
theorem AbortsOr.raise_if {s t : State} {P : State → Prop} {c : Prop} [Decidable c] {f : Fault} (hf : f.aborts = true)
    (ht : ¬ c → P t) : AbortsOr s P (if c then s.raise f else .next t) := by
  split
  · exact .abort hf
  · exact .next (ht ‹_›)

/-- An instruction that takes a fault unless a condition holds. -/
theorem AbortsOr.raise_unless {s t : State} {P : State → Prop} {c : Prop} [Decidable c] {f : Fault} (hf : f.aborts = true)
    (ht : c → P t) : AbortsOr s P (if c then .next t else s.raise f) := by
  split
  · exact .next (ht ‹_›)
  · exact .abort hf

theorem AbortsOr.imp {s : State} {P Q : State → Prop} {o : Host.Outcome State Fault Refusal} (h : AbortsOr s P o)
    (hPQ : ∀ t, P t → Q t) : AbortsOr s Q o := by
  cases h with
  | abort hf => exact .abort hf
  | next ht => exact .next (hPQ _ ht)

/-- What an instruction's answer is, given what it may be: the fault was taken, or the property holds. -/
theorem AbortsOr.next_cases {s t : State} {P : State → Prop} {o : Host.Outcome State Fault Refusal} (h : AbortsOr s P o)
    (ho : o = .next t) : (∃ f, f.aborts = true ∧ t = { s with result := some f }) ∨ P t := by
  cases h with
  | abort hf => cases ho; exact .inl ⟨_, hf, rfl⟩
  | next ht => cases ho; exact .inr ht

/-- An instruction that completes changes only the parts listed for it. -/
theorem exec_changesOnly (i : Instr) (s : State) : AbortsOr s (ChangesOnly i.parts s) (exec i s) := by
  cases i with
  | cls => exact .next (changesOnly_with_fb s _).fallThrough
  | ret => exact .raise_if rfl fun _ => changesOnly_with_pc_sp s _ _
  | call => exact .raise_if rfl fun _ =>
      (changesOnly_with_sp s _).trans ((changesOnly_setSlot _ _ _).trans (changesOnly_jumpTo _ _))
  | jp | jpV0 => exact .next (changesOnly_jumpTo s _)
  | seImm | sneImm | seReg | sneReg => exact .next (changesOnly_skipIf s _)
  | skp | sknp => exact .raise_if rfl fun _ => changesOnly_skipIf s _
  | ldImm | addImm | ldReg | orReg | andReg | xorReg | ldVxDt => exact .next (changesOnly_setV s _ _).fallThrough
  | addReg | sub | shr | subn | shl => exact .next (changesOnly_setVFlag s _ _ _).fallThrough
  | ldVxK => exact .next (changesOnly_keyWait s _ _)
  | rnd => exact .next ((changesOnly_setV s _ _).trans (changesOnly_with_rndIn _ _)).fallThrough
  | drw => exact .raise_unless rfl fun _ => ((changesOnly_with_fb s _).trans (changesOnly_setV _ _ _)).fallThrough
  | ldI | addI | ldF => exact .next (changesOnly_with_i s _).fallThrough
  | ldB | storeRegs => exact .raise_unless rfl fun _ => (changesOnly_with_mem s _).fallThrough
  | loadRegs => exact .raise_unless rfl fun _ => (changesOnly_with_v s _).fallThrough
  | ldDtVx => exact .next (changesOnly_with_dt s _).fallThrough
  | ldStVx => exact .next (changesOnly_with_st s _).fallThrough

/-- The frame of an instruction, the report of a fault included. -/
theorem changesOnly_of_exec {i : Instr} {s t : State} (h : exec i s = .next t) : ChangesOnly (.result :: i.parts) s t := by
  rcases (exec_changesOnly i s).next_cases h with ⟨f, -, rfl⟩ | hc
  · exact (changesOnly_with_result s _).mono (by simp)
  · exact hc.mono (List.subset_cons_self ..)

/-! ### The frame of the step -/

/-- The parts a step may change whichever instruction it runs: PC, the timers by the tick, the result ports, and the keypad
sample it uses up (40_step_cycle.md R122 to R124). -/
def stepParts : List Part := [.pc, .dt, .st, .result, .keyIn]

/-- The change of the steps that run no instruction: a failed fetch, and the Unknown step. -/
theorem changesOnly_stepParts (s : State) (a : Addr) (d e : Byte) (r : Option Fault) (k : InputPort 16) :
    ChangesOnly stepParts s { s with pc := a, dt := d, st := e, result := r, keyIn := k } := by
  intro p hp; cases p <;> simp_all [stepParts, Part.same, State.getV, State.getSlot]

/-- A step that runs an instruction is its meaning between the clearing of the report and the end of the step. -/
theorem State.Runs.exec_of_step {s t : State} {i : Instr} (hr : s.Runs i) (h : step s = .next t) :
    ∃ u, exec i s.beginStep = .next u ∧ t = u.finishStep := by
  rcases step_cases s with ⟨hpc, -⟩ | ⟨-, hd, -⟩ | ⟨j, u, hj, hu, hs⟩
  · exact absurd hr.1 (by omega)
  · exact absurd (hd.symm.trans hr.2) (by simp)
  · obtain rfl := hr.unique hj
    exact ⟨u, hu, Host.Outcome.next.inj (h.symm.trans hs)⟩

/-- A step runs an instruction, or it changes nothing beyond the parts every step may change. -/
theorem step_runs_or_changesOnly {s t : State} (h : step s = .next t) :
    (∃ i, s.Runs i) ∨ ChangesOnly stepParts s t := by
  rcases step_cases s with ⟨-, hs⟩ | ⟨-, -, hs⟩ | ⟨i, -, hi, -⟩
  · obtain rfl := Host.Outcome.next.inj (hs.symm.trans h)
    exact .inr (changesOnly_stepParts _ _ _ _ _ _)
  · obtain rfl := Host.Outcome.next.inj (hs.symm.trans h)
    exact .inr (changesOnly_stepParts _ _ _ _ _ _)
  · exact .inl ⟨i, hi⟩

/-- Running an instruction in a step changes only the parts listed for it and those every step may change. -/
theorem State.Runs.changesOnly {s t : State} {i : Instr} (hr : s.Runs i) (h : step s = .next t) :
    ChangesOnly (i.parts ++ stepParts) s t := by
  obtain ⟨u, hu, rfl⟩ := hr.exec_of_step h
  refine ((changesOnly_beginStep s).trans ((changesOnly_of_exec hu).trans (changesOnly_finishStep u))).mono ?_
  intro p hp
  simp only [List.mem_append, List.mem_cons, List.not_mem_nil, stepParts] at hp ⊢
  tauto

/-- A part that not every step may change is changed only by running an instruction that has it among its parts. -/
theorem runs_writer_of_not_same {s t : State} {p : Part} (h : step s = .next t) (hp : p ∉ stepParts) (hne : ¬ p.same s t) :
    ∃ i, s.Runs i ∧ p ∈ i.parts := by
  rcases step_runs_or_changesOnly h with ⟨i, hi⟩ | hc
  · refine ⟨i, hi, ?_⟩
    by_contra hnot
    exact hne (hi.changesOnly h p (by simp [hnot, hp]))
  · exact absurd (hc p hp) hne

/-! ### Who writes the framebuffer, the index register, the stack -/

theorem fb_mem_parts {i : Instr} : Part.fb ∈ i.parts ↔ i = .cls ∨ ∃ x y n, i = .drw x y n := by
  cases i <;> simp [Instr.parts]

theorem index_mem_parts {i : Instr} : Part.index ∈ i.parts ↔ (∃ nnn, i = .ldI nnn) ∨ (∃ x, i = .addI x) ∨ ∃ x, i = .ldF x := by
  cases i <;> simp [Instr.parts]

theorem sp_mem_parts {i : Instr} : Part.sp ∈ i.parts ↔ (∃ nnn, i = .call nnn) ∨ i = .ret := by
  cases i <;> simp [Instr.parts]

theorem stack_mem_parts {i : Instr} : Part.stack ∈ i.parts ↔ ∃ nnn, i = .call nnn := by
  cases i <;> simp [Instr.parts]

/-- RET that takes no fault lowers SP by one, never past 0 (41_control_transfer.md R140). -/
theorem exec_ret_sp (s : State) : AbortsOr s (fun t => t.sp.toNat + 1 = s.sp.toNat) (exec .ret s) :=
  .raise_if rfl fun hne => show (s.sp - 1).toNat + 1 = s.sp.toNat by bv_omega

/-- CALL that takes no fault raises SP by one, never past 15, and writes the one slot the raised SP names (R142). -/
theorem exec_call_stack (nnn : BitVec 12) (s : State) :
    AbortsOr s (fun t => t.sp.toNat = s.sp.toNat + 1 ∧
      ∀ k, t.getSlot k = if k.toNat = s.sp.toNat + 1 then s.pc else s.getSlot k) (exec (.call nnn) s) := by
  refine .raise_if rfl fun hfull => ?_
  have hsp : (s.sp + 1).toNat = s.sp.toNat + 1 := by simp only [Config.maxDepth] at hfull; bv_omega
  refine ⟨hsp, fun k => (State.getSlot_setSlot _ k _ _).trans ?_⟩
  have hk : k = s.sp + 1 ↔ k.toNat = s.sp.toNat + 1 := by rw [BitVec.toNat_eq, hsp]
  simp only [hk]
  rfl

/-! ### The registers -/

/-- A register that an instruction does not list as written keeps its value. -/
theorem exec_getV_of_not_writesReg (i : Instr) (s : State) :
    AbortsOr s (fun t => ∀ j, i.writesReg j = false → t.getV j = s.getV j) (exec i s) := by
  cases i with
  | ldImm | addImm | ldReg | orReg | andReg | xorReg | rnd | ldVxDt =>
    exact .next fun j hj => (State.getV_setV ..).trans (if_neg (ne_of_beq_false hj))
  | ldVxK =>
    refine .next fun j hj => ?_
    unfold State.keyWait
    cases lowestKey s.key with
    | none => rfl
    | some k => exact (State.getV_setV ..).trans (if_neg (ne_of_beq_false hj))
  | addReg | sub | shr | subn | shl =>
    refine .next fun j hj => ?_
    obtain ⟨hx, hf⟩ := Bool.or_eq_false_iff.mp hj
    simp [ne_of_beq_false hx, ne_of_beq_false hf]
  | drw => exact .raise_unless rfl fun _ j hj => (State.getV_setV ..).trans (if_neg (ne_of_beq_false hj))
  | loadRegs x =>
    refine .raise_unless rfl fun _ j hj => (loadBlock_get _ _ _ _ _ j.isLt).trans (if_neg ?_)
    have hjx : ¬ j.val ≤ x.val := of_decide_eq_false hj
    omega
  | _ => exact (exec_changesOnly _ s).imp fun t ht j _ => ht .regs (by simp [Instr.parts]) j

/-- Settles O16: a changed register is a written one, by the contrapositive of `exec_getV_of_not_writesReg`. -/
theorem registersChangeOnlyAsDestinations : Obligations.RegistersChangeOnlyAsDestinations := by
  intro i s t j h hne
  by_contra hw
  rcases (exec_getV_of_not_writesReg i s).next_cases h with ⟨f, -, rfl⟩ | hkeep
  · exact hne rfl
  · exact hne (hkeep j (Bool.eq_false_iff.mpr hw))

/-- A step that changes SP runs CALL and raises it by one, or runs RET and lowers it by one. -/
theorem sp_change_cases {s t : State} (h : step s = .next t) (hne : t.sp ≠ s.sp) :
    (∃ nnn, s.Runs (.call nnn)) ∧ t.sp.toNat = s.sp.toNat + 1 ∨ s.Runs .ret ∧ t.sp.toNat + 1 = s.sp.toNat := by
  obtain ⟨i, hr, hi⟩ := runs_writer_of_not_same h (p := .sp) (by decide) hne
  obtain ⟨u, hu, rfl⟩ := hr.exec_of_step h
  rw [State.finishStep_sp] at hne ⊢
  rcases sp_mem_parts.mp hi with ⟨nnn, rfl⟩ | rfl
  · rcases (exec_call_stack nnn _).next_cases hu with ⟨f, -, rfl⟩ | ⟨hsp, -⟩
    · exact absurd rfl hne
    · exact .inl ⟨⟨nnn, hr⟩, hsp⟩
  · rcases (exec_ret_sp _).next_cases hu with ⟨f, -, rfl⟩ | hsp
    · exact absurd rfl hne
    · exact .inr ⟨hr, hsp⟩

/-- A step that changes a stack slot runs CALL, and the slot is the one above the old SP. -/
theorem slot_change_cases {s t : State} {k : BitVec 4} (h : step s = .next t) (hne : t.getSlot k ≠ s.getSlot k) :
    (∃ nnn, s.Runs (.call nnn)) ∧ k.toNat = s.sp.toNat + 1 := by
  obtain ⟨i, hr, hi⟩ := runs_writer_of_not_same h (p := .stack) (by decide) fun hsame => hne (hsame k)
  obtain ⟨u, hu, rfl⟩ := hr.exec_of_step h
  rw [State.finishStep_getSlot] at hne
  obtain ⟨nnn, rfl⟩ := stack_mem_parts.mp hi
  refine ⟨⟨nnn, hr⟩, ?_⟩
  by_contra hk
  rcases (exec_call_stack nnn _).next_cases hu with ⟨f, -, rfl⟩ | ⟨-, hslots⟩
  · exact hne rfl
  · exact hne ((hslots k).trans (if_neg hk))

/-- Settles O18. Slot 0 is above no SP, so no CALL writes it. -/
theorem stackChangesOnlyInCallAndRet : Obligations.StackChangesOnlyInCallAndRet := by
  intro s t h
  refine ⟨sp_change_cases h, fun k => slot_change_cases h, ?_⟩
  by_contra hne
  exact absurd (slot_change_cases h hne).2 (by simp)

/-- Settles O19: only CLS and DRW have the framebuffer among their parts, and no step changes it by itself. -/
theorem framebufferChangesOnlyInClsAndDrw : Obligations.FramebufferChangesOnlyInClsAndDrw := by
  intro s t k h hne
  obtain ⟨i, hr, hi⟩ := runs_writer_of_not_same h (p := .fb) (by decide) fun hsame => hne (hsame k)
  rcases fb_mem_parts.mp hi with rfl | ⟨x, y, n, rfl⟩
  · exact .inl hr
  · exact .inr ⟨x, y, n, hr⟩

/-- Settles O20: only Annn, Fx1E and Fx29 have I among their parts, and no step changes it by itself. -/
theorem indexRegisterWriters : Obligations.IndexRegisterWriters := by
  intro s t h hne
  obtain ⟨i, hr, hi⟩ := runs_writer_of_not_same h (p := .index) (by decide) hne
  rcases index_mem_parts.mp hi with ⟨nnn, rfl⟩ | ⟨x, rfl⟩ | ⟨x, rfl⟩
  · exact .inl ⟨nnn, hr⟩
  · exact .inr (.inl ⟨x, hr⟩)
  · exact .inr (.inr ⟨x, hr⟩)

/-! ### Reset -/

/-- Outside the font table memory is 0 at reset (10_state.md R41). -/
theorem Memory.unlisted_outside_font {a : Nat} (h : a < 0x050 ∨ 0x09F < a) : Memory.unlisted a = 0 := by
  unfold Memory.unlisted fontBase
  rcases h with h | h
  · rw [if_pos h]
  · have hlen : fontTable.length = 80 := by decide
    rw [if_neg (by omega), List.getD_eq_default _ _ (by omega)]

/-- Settles O23: nothing is listed in memory at reset, so the font bytes are those of the table, compared one by one. -/
theorem resetValues : Obligations.ResetValues := by
  refine ⟨rfl, rfl, rfl, rfl, rfl, rfl, fun x => ?_, fun k => ?_, Framebuffer.cell_clear,
    fun a => Memory.unlisted_outside_font, by decide⟩
  · exact Vector.getElem_replicate ..
  · exact Vector.getElem_replicate ..

/-- Settles O26: with SP = 0 no slot holds a return address. -/
theorem resetMeetsTheInvariant : Obligations.ResetMeetsTheInvariant := by
  refine ⟨⟨Memory.wf_reset, by decide, fun k h1 h2 => ?_⟩, rfl⟩
  have hsp : State.reset.sp.toNat = 0 := rfl
  omega

/-! ### The framebuffer port -/

theorem State.framebufferPort_length (s : State) : s.framebufferPort.length = 2048 := by
  simp [State.framebufferPort]

theorem State.framebufferPort_getElem? (s : State) {k : Nat} (hk : k < 2048) :
    s.framebufferPort[k]? = some (s.fb.cell k) := by
  simp [State.framebufferPort, List.getElem?_range hk]

/-- Settles O56: every index px + 64*py of the screen is below 2048. -/
theorem framebufferPortIsRowMajor : Obligations.FramebufferPortIsRowMajor := by
  intro s
  refine ⟨s.framebufferPort_length, fun px hx py hy => s.framebufferPort_getElem? ?_⟩
  omega

end Sys2Proof.Machine

/-! SUPPORT. Memory (20_memory.md): its canonical form determines it, the one way a step changes it, and the fetch after a
store. -/

namespace Sys2Proof.Machine

/-! ### Canonical memories -/

theorem Memory.wfFrom_cons {lo a : Nat} {w : Byte} {m : Memory} :
    Memory.wfFrom lo ((a, w) :: m) = true ↔
      lo ≤ a ∧ a < Config.memSize ∧ w ≠ Memory.unlisted a ∧ m.wfFrom (a + 1) = true := by
  simp [Memory.wfFrom, and_assoc]

/-- An address that does not read as unlisted is at or above the first cell. -/
theorem Memory.le_of_read_ne_unlisted {m : Memory} {lo a : Nat} (h : m.wfFrom lo = true)
    (ha : m.read a ≠ Memory.unlisted a) : lo ≤ a :=
  Nat.not_lt.mp fun hlt => ha (Memory.read_below h hlt)

/-- The first cell's address does not read as unlisted, and the memory is canonical from there upward. -/
theorem Memory.wfFrom_head {lo a : Nat} {w : Byte} {m : Memory} (h : Memory.wfFrom lo ((a, w) :: m) = true) :
    Memory.read ((a, w) :: m) a ≠ Memory.unlisted a ∧ Memory.wfFrom a ((a, w) :: m) = true := by
  obtain ⟨-, hmem, hw, hrest⟩ := Memory.wfFrom_cons.mp h
  exact ⟨by simpa using hw, Memory.wfFrom_cons.mpr ⟨le_rfl, hmem, hw, hrest⟩⟩

/-- The reads of a canonical memory's tail: the first cell's address reads as unlisted there. -/
theorem Memory.read_tail {lo a : Nat} {w : Byte} {m : Memory} (h : Memory.wfFrom lo ((a, w) :: m) = true) (c : Nat) :
    m.read c = if c = a then Memory.unlisted c else Memory.read ((a, w) :: m) c := by
  obtain ⟨-, -, -, hrest⟩ := Memory.wfFrom_cons.mp h
  by_cases hc : c = a
  · rw [if_pos hc, Memory.read_below hrest (by omega)]
  · rw [if_neg hc, Memory.read_cons, if_neg hc]

/-- Two canonical memories that read the same have the same first cell, for each one's first address is at or above the
other's, and their tails read the same. -/
theorem Memory.eq_of_read_eq {m n : Memory} {lo lo' : Nat} (hm : m.wfFrom lo = true) (hn : n.wfFrom lo' = true)
    (h : ∀ a, m.read a = n.read a) : m = n := by
  induction m generalizing n lo lo' with
  | nil =>
    cases n with
    | nil => rfl
    | cons d n => exact absurd (h d.1).symm (Memory.wfFrom_head hn).1
  | cons c m ih =>
    obtain ⟨a, w⟩ := c
    obtain ⟨ha, hma⟩ := Memory.wfFrom_head hm
    cases n with
    | nil => exact absurd (h a) ha
    | cons d n =>
      obtain ⟨b, u⟩ := d
      obtain ⟨hb, hnb⟩ := Memory.wfFrom_head hn
      obtain rfl : a = b := le_antisymm
        (Memory.le_of_read_ne_unlisted hma (by rwa [h b])) (Memory.le_of_read_ne_unlisted hnb (by rwa [← h a]))
      obtain rfl : w = u := by simpa using h a
      obtain ⟨-, -, -, hm'⟩ := Memory.wfFrom_cons.mp hm
      obtain ⟨-, -, -, hn'⟩ := Memory.wfFrom_cons.mp hn
      rw [ih hm' hn' fun e => by rw [Memory.read_tail hm, Memory.read_tail hn, h e]]

/-- Settles O29: `Memory.eq_of_read_eq` from address 0 upward. -/
theorem canonicalMemoriesWithEqualReadsAreEqual : Obligations.CanonicalMemoriesWithEqualReadsAreEqual :=
  fun _ _ => Memory.eq_of_read_eq

/-! ### What a step does to memory -/

/-- The block at I that instruction `i` accesses lies in memory, and bytes are written over exactly that block
(44_index_memory.md R183, R184, R187). -/
def BlockStored (i : Instr) (s t : State) : Prop :=
  s.i.toNat + i.blockLength ≤ Config.memSize ∧
    ∃ bytes : List Byte, bytes.length = i.blockLength ∧ t.mem = s.mem.writeBytes s.i.toNat bytes

theorem BlockStored.wf {i : Instr} {s t : State} (h : BlockStored i s t) (hwf : s.mem.wf = true) : t.mem.wf = true := by
  obtain ⟨hin, bytes, hlen, hmem⟩ := h
  exact hmem ▸ Memory.wf_writeBytes bytes hwf (hlen ▸ hin)

theorem BlockStored.finishStep {i : Instr} {s t : State} (h : BlockStored i s t) : BlockStored i s t.finishStep := by
  simpa only [BlockStored, State.finishStep_mem] using h

/-- A stored block changes only bytes inside it. -/
theorem BlockStored.mem_block_of_read_ne {i : Instr} {s t : State} {a : Nat} (h : BlockStored i s t)
    (hwf : s.mem.wf = true) (hne : t.mem.read a ≠ s.mem.read a) : s.i.toNat ≤ a ∧ a < s.i.toNat + i.blockLength := by
  obtain ⟨hin, bytes, hlen, hmem⟩ := h
  rw [hmem, Memory.read_writeBytes a bytes hwf (hlen ▸ hin), hlen] at hne
  by_contra hout
  exact hne (if_neg hout)

/-- Storing at I as many bytes as an instruction's block has. -/
theorem State.storeAtI_blockStored {i : Instr} {bytes : List Byte} (s : State) (hlen : bytes.length = i.blockLength)
    (hpos : 0 < i.blockLength) : AbortsOr s (BlockStored i s) (s.storeAtI bytes) := by
  refine .raise_unless rfl fun hin => ⟨?_, bytes, hlen, rfl⟩
  rw [blockInBounds_iff, hlen] at hin
  exact hin.resolve_left (by omega)

/-- An instruction that completes leaves memory as it was, the same data, or it is Fx33 or Fx55 and stores its block. -/
theorem exec_mem (i : Instr) (s : State) :
    AbortsOr s (fun t => t.mem = s.mem ∨ (∃ x, i = .ldB x ∨ i = .storeRegs x) ∧ BlockStored i s t) (exec i s) := by
  cases i with
  | ldB x =>
    have hlen : (bcdDigits (s.getV x)).length = (Instr.ldB x).blockLength := bcdDigits_length _
    exact (s.storeAtI_blockStored hlen (Nat.succ_pos _)).imp fun t ht => .inr ⟨⟨x, .inl rfl⟩, ht⟩
  | storeRegs x =>
    have hlen : (s.firstRegs x).length = (Instr.storeRegs x).blockLength := s.firstRegs_length x
    exact (s.storeAtI_blockStored hlen (Nat.succ_pos _)).imp fun t ht => .inr ⟨⟨x, .inr rfl⟩, ht⟩
  | ret | call | skp | sknp => exact .raise_if rfl fun _ => .inl rfl
  | drw | loadRegs => exact .raise_unless rfl fun _ => .inl rfl
  | _ => exact .next (.inl rfl)

/-- A step leaves memory as it was, the same data, or it runs Fx33 or Fx55 and stores its block. -/
theorem step_mem_cases {s t : State} (h : step s = .next t) :
    t.mem = s.mem ∨ ∃ i x, (i = .ldB x ∨ i = .storeRegs x) ∧ s.Runs i ∧ BlockStored i s t := by
  rcases step_cases s with ⟨-, hs⟩ | ⟨-, -, hs⟩ | ⟨i, u, hr, hu, hs⟩ <;>
    obtain rfl := Host.Outcome.next.inj (hs.symm.trans h)
  · exact .inl rfl
  · exact .inl rfl
  · rw [State.finishStep_mem]
    rcases (exec_mem i s.beginStep).next_cases hu with ⟨f, -, rfl⟩ | hkeep | ⟨⟨x, hx⟩, hstored⟩
    · exact .inl rfl
    · exact .inl hkeep
    · exact .inr ⟨i, x, hx, hr, hstored.finishStep⟩

/-- Settles O17: a step that changes a byte stores a block, which lies in memory and holds that byte. -/
theorem memoryChangesOnlyInTheStoredBlock : Obligations.MemoryChangesOnlyInTheStoredBlock := by
  intro s t a hwf h hne
  rcases step_mem_cases h with hkeep | ⟨i, x, hx, hr, hstored⟩
  · exact absurd (congrArg (Memory.read · a) hkeep) hne
  · obtain ⟨hlo, hhi⟩ := hstored.mem_block_of_read_ne hwf hne
    obtain ⟨hin, -⟩ := hstored
    simp only [Config.memSize] at hin
    exact ⟨i, x, hx, hr, hlo, hhi, by omega⟩

/-- Settles O27: a step keeps memory or stores one block inside it. -/
theorem stepKeepsMemoryCanonical : Obligations.StepKeepsMemoryCanonical := by
  intro s t hwf h
  rcases step_mem_cases h with hkeep | ⟨i, x, -, -, hstored⟩
  · rwa [hkeep]
  · exact hstored.wf hwf

/-! ### The fetch after a store -/

/-- Fx55 in bounds writes V0 to Vx at I upward and falls through (44_index_memory.md R184). -/
theorem exec_storeRegs_in {x : Reg} {s : State} (h : s.i.toNat + x.val ≤ 0xFFF) :
    exec (.storeRegs x) s = .next { s with mem := s.mem.writeBytes s.i.toNat (s.firstRegs x), pc := s.pc + 2 } :=
  State.storeAtI_in ((blockInBounds_iff _ _).mpr (.inr (by rw [State.firstRegs_length]; omega)))

/-- Byte `j` of the block that Fx55 writes reads as Vj. -/
theorem read_writeBytes_firstRegs {s : State} {x : Reg} (hwf : s.mem.wf = true) (h : s.i.toNat + x.val ≤ 0xFFF)
    (j : Nat) (hj : j ≤ x.val) :
    (s.mem.writeBytes s.i.toNat (s.firstRegs x)).read (s.i.toNat + j) = s.getV ⟨j, by omega⟩ := by
  have hlen := s.firstRegs_length x
  rw [Memory.read_writeBytes _ _ hwf (by simp only [hlen, Config.memSize]; omega), if_pos (by omega), Nat.add_sub_cancel_left,
    State.firstRegs_getD s x j hj]

/-- Settles O49: the next fetch is at I, where the first two bytes of the block are V0 and V1. -/
theorem storeIsSeenByTheNextFetch : Obligations.StoreIsSeenByTheNextFetch := by
  intro x s t hwf hx hin hi hr h
  obtain ⟨u, hu, rfl⟩ := hr.exec_of_step h
  obtain rfl := Host.Outcome.next.inj ((exec_storeRegs_in (s := s.beginStep) hin).symm.trans hu)
  have hread := read_writeBytes_firstRegs hwf hin
  have hpc : (s.pc + 2).toNat ≤ 0xFFE := by rw [← hi]; omega
  rw [State.fetch_ok (by simpa using hpc), State.wordAtPc]
  simp only [State.finishStep_mem, State.finishStep_pc, State.beginStep_pc, ← hi]
  exact congrArg Except.ok (congrArg₂ mergeBytes (hread 0 (Nat.zero_le _)) (hread 1 hx))

end Sys2Proof.Machine

/-! SUPPORT. The decoder and the encoder are inverse, and both follow the opcode map (30_encoding.md R91 to R96). -/

namespace Sys2Proof

/-! ### A word of which the fixed fields are known -/

/-- A word whose `op` field is known is the word of format NNN with its own `nnn`. -/
theorem encodeNNN_of_op {w : Opcode} {op : BitVec 4} (hop : w.op = op) : encodeNNN op w.nnn = w :=
  hop ▸ encodeNNN_fields w

theorem encodeXKK_of_op {w : Opcode} {op : BitVec 4} (hop : w.op = op) : encodeXKK op w.x w.kk = w :=
  hop ▸ encodeXKK_fields w

theorem encodeXKK_of_op_kk {w : Opcode} {op : BitVec 4} {kk : Byte} (hop : w.op = op) (hkk : w.kk = kk) :
    encodeXKK op w.x kk = w :=
  hkk ▸ encodeXKK_of_op hop

theorem encodeXYN_of_op {w : Opcode} {op : BitVec 4} (hop : w.op = op) : encodeXYN op w.x w.y w.n = w :=
  hop ▸ encodeXYN_fields w

theorem encodeXYN_of_op_n {w : Opcode} {op n : BitVec 4} (hop : w.op = op) (hn : w.n = n) :
    encodeXYN op w.x w.y n = w :=
  hn ▸ encodeXYN_of_op hop

/-! ### Decode of encode -/

/-- Settles O2: the encoder's fields are read back (R91), and they select the arm of R94 that the instruction stands in. -/
theorem decodeOfEncodeIsTheInstruction : Obligations.DecodeOfEncodeIsTheInstruction := by
  intro i
  cases i with
  | cls | ret => decide
  | jp | call | ldI | jpV0 | seImm | sneImm | ldImm | addImm | rnd | seReg | sneReg | drw => simp [encode, decode]
  | ldReg | orReg | andReg | xorReg | addReg | sub | shr | subn | shl => simp [encode, decode, decodeFamily8]
  | skp | sknp => simp [encode, decode, decodeFamilyE]
  | ldVxDt | ldVxK | ldDtVx | ldStVx | addI | ldF | ldB | storeRegs | loadRegs =>
    simp [encode, decode, decodeFamilyF]

/-! ### Encode of decode -/

/-- If the answer of the decoder on `w` is an instruction, `w` is its word. -/
def Decoded.EncodesBack (w : Opcode) : Decoded → Prop
  | .instr i => encode i = w
  | .unknown | .truncated => True

theorem decodeFamily0_encodesBack (w : Opcode) : (decodeFamily0 w).EncodesBack w := by
  unfold decodeFamily0
  split_ifs with hcls hret
  · exact hcls.symm
  · exact hret.symm
  · trivial

theorem decodeFamily8_encodesBack {w : Opcode} (hop : w.op = 0x8) : (decodeFamily8 w).EncodesBack w := by
  unfold decodeFamily8
  split
  case h_10 => trivial
  all_goals next hn => exact encodeXYN_of_op_n hop (BitVec.eq_of_toNat_eq hn)

theorem decodeFamilyE_encodesBack {w : Opcode} (hop : w.op = 0xE) : (decodeFamilyE w).EncodesBack w := by
  unfold decodeFamilyE
  split_ifs with hskp hsknp
  · exact encodeXKK_of_op_kk hop hskp
  · exact encodeXKK_of_op_kk hop hsknp
  · trivial

theorem decodeFamilyF_encodesBack {w : Opcode} (hop : w.op = 0xF) : (decodeFamilyF w).EncodesBack w := by
  unfold decodeFamilyF
  repeat' split
  case isFalse => trivial
  all_goals next hkk => exact encodeXKK_of_op_kk hop hkk

/-- Every arm of R94 builds its instruction from the fields of the word, and has tested the fields it does not use. -/
theorem decode_encodesBack (w : Opcode) : (decode w).EncodesBack w := by
  unfold decode
  split
  case h_1 => exact decodeFamily0_encodesBack w
  case h_2 hop | h_3 hop | h_11 hop | h_12 hop => exact encodeNNN_of_op (BitVec.eq_of_toNat_eq hop)
  case h_4 hop | h_5 hop | h_7 hop | h_8 hop | h_13 hop => exact encodeXKK_of_op (BitVec.eq_of_toNat_eq hop)
  case h_6 hop | h_10 hop =>
    split_ifs with hn
    · exact encodeXYN_of_op_n (BitVec.eq_of_toNat_eq hop) hn
    · trivial
  case h_9 hop => exact decodeFamily8_encodesBack (BitVec.eq_of_toNat_eq hop)
  case h_14 hop => exact encodeXYN_of_op_n (BitVec.eq_of_toNat_eq hop) (bitsOfReg_regOfBits w.n).symm
  case h_15 hop => exact decodeFamilyE_encodesBack (BitVec.eq_of_toNat_eq hop)
  case h_16 hop => exact decodeFamilyF_encodesBack (BitVec.eq_of_toNat_eq hop)
  case h_17 => trivial

/-- Settles O3: the answer of the decoder is an instruction of which `w` is the word. -/
theorem encodeOfDecodeIsTheWord : Obligations.EncodeOfDecodeIsTheWord := by
  intro w i h
  have hback := decode_encodesBack w
  rwa [h] at hback

/-! ### The opcode map -/

/-- The law of every instruction's row, constructor by constructor. -/
theorem Laws.EncodesItsRow.all : (i : Instr) → Laws.EncodesItsRow.Statement i
  | .cls => cls | .ret => ret | .jp nnn => jp nnn | .call nnn => call nnn
  | .seImm x kk => seImm x kk | .sneImm x kk => sneImm x kk | .seReg x y => seReg x y | .sneReg x y => sneReg x y
  | .ldImm x kk => ldImm x kk | .addImm x kk => addImm x kk | .ldReg x y => ldReg x y | .orReg x y => orReg x y
  | .andReg x y => andReg x y | .xorReg x y => xorReg x y | .addReg x y => addReg x y | .sub x y => sub x y
  | .shr x y => shr x y | .subn x y => subn x y | .shl x y => shl x y | .ldI nnn => ldI nnn | .jpV0 nnn => jpV0 nnn
  | .rnd x kk => rnd x kk | .drw x y n => drw x y n | .skp x => skp x | .sknp x => sknp x | .ldVxDt x => ldVxDt x
  | .ldVxK x => ldVxK x | .ldDtVx x => ldDtVx x | .ldStVx x => ldStVx x | .addI x => addI x | .ldF x => ldF x
  | .ldB x => ldB x | .storeRegs x => storeRegs x | .loadRegs x => loadRegs x

/-- A word whose `op` bits, alone under the mask, are those of `op` has that `op` field. -/
theorem op_of_masked {w : Opcode} {op : BitVec 4} (h : w &&& 0xF000 = encodeNNN op 0) : w.op = op := by
  have hmask := encodeNNN_masked w.op w.nnn
  rw [encodeNNN_fields, h] at hmask
  have hop : (encodeNNN op 0).op = (encodeNNN w.op 0).op := congrArg Opcode.op hmask
  simpa using hop.symm

/-- The mask of format X leaves `op` and the low byte; `x` is the word's own. -/
theorem encodeXKK_of_masked {w : Opcode} {op : BitVec 4} {kk : Byte} (h : w &&& 0xF0FF = encodeXKK op 0 kk) :
    encodeXKK op w.x kk = w := by
  have hmask := encodeX_masked w.op w.x w.kk
  rw [encodeXKK_fields, h] at hmask
  have hop : (encodeXKK op 0 kk).op = (encodeXKK w.op 0 w.kk).op := congrArg Opcode.op hmask
  have hkk : (encodeXKK op 0 kk).kk = (encodeXKK w.op 0 w.kk).kk := congrArg Opcode.kk hmask
  simp only [encodeXKK_op, encodeXKK_kk] at hop hkk
  exact encodeXKK_of_op_kk hop.symm hkk.symm

/-- The mask of format XY leaves `op` and the low nibble; `x` and `y` are the word's own. -/
theorem encodeXYN_of_masked {w : Opcode} {op n : BitVec 4} (h : w &&& 0xF00F = encodeXYN op 0 0 n) :
    encodeXYN op w.x w.y n = w := by
  have hmask := encodeXY_masked w.op w.x w.y w.n
  rw [encodeXYN_fields, h] at hmask
  have hop : (encodeXYN op 0 0 n).op = (encodeXYN w.op 0 0 w.n).op := congrArg Opcode.op hmask
  have hn : (encodeXYN op 0 0 n).n = (encodeXYN w.op 0 0 w.n).n := congrArg Opcode.n hmask
  simp only [encodeXYN_op, encodeXYN_n] at hop hn
  exact encodeXYN_of_op_n hop.symm hn.symm

/-- The instruction of the same row as `i` whose operands are the fields of `w` (R91). -/
def Instr.withFieldsOf (w : Opcode) : Instr → Instr
  | .cls => .cls
  | .ret => .ret
  | .jp _ => .jp w.nnn
  | .call _ => .call w.nnn
  | .seImm _ _ => .seImm w.x w.kk
  | .sneImm _ _ => .sneImm w.x w.kk
  | .seReg _ _ => .seReg w.x w.y
  | .sneReg _ _ => .sneReg w.x w.y
  | .ldImm _ _ => .ldImm w.x w.kk
  | .addImm _ _ => .addImm w.x w.kk
  | .ldReg _ _ => .ldReg w.x w.y
  | .orReg _ _ => .orReg w.x w.y
  | .andReg _ _ => .andReg w.x w.y
  | .xorReg _ _ => .xorReg w.x w.y
  | .addReg _ _ => .addReg w.x w.y
  | .sub _ _ => .sub w.x w.y
  | .shr _ _ => .shr w.x w.y
  | .subn _ _ => .subn w.x w.y
  | .shl _ _ => .shl w.x w.y
  | .ldI _ => .ldI w.nnn
  | .jpV0 _ => .jpV0 w.nnn
  | .rnd _ _ => .rnd w.x w.kk
  | .drw _ _ _ => .drw w.x w.y (regOfBits w.n)
  | .skp _ => .skp w.x
  | .sknp _ => .sknp w.x
  | .ldVxDt _ => .ldVxDt w.x
  | .ldVxK _ => .ldVxK w.x
  | .ldDtVx _ => .ldDtVx w.x
  | .ldStVx _ => .ldStVx w.x
  | .addI _ => .addI w.x
  | .ldF _ => .ldF w.x
  | .ldB _ => .ldB w.x
  | .storeRegs _ => .storeRegs w.x
  | .loadRegs _ => .loadRegs w.x

theorem Instr.row_withFieldsOf (w : Opcode) (i : Instr) : (i.withFieldsOf w).row = i.row := by
  cases i <;> rfl

/-- A word that a row admits has the row's fixed fields, and its other fields are the operands. -/
theorem Instr.encode_withFieldsOf {w : Opcode} {i : Instr} (h : i.row.admits w = true) : encode (i.withFieldsOf w) = w := by
  have hmask : w &&& i.row.mask = i.row.pattern := beq_iff_eq.mp h
  cases i with
  | cls | ret => exact hmask.symm.trans BitVec.and_allOnes
  | jp | call | ldI | jpV0 => exact encodeNNN_of_op (op_of_masked hmask)
  | seImm | sneImm | ldImm | addImm | rnd => exact encodeXKK_of_op (op_of_masked hmask)
  | drw => exact encodeXYN_of_op_n (op_of_masked hmask) (bitsOfReg_regOfBits w.n).symm
  | seReg | sneReg | ldReg | orReg | andReg | xorReg | addReg | sub | shr | subn | shl =>
    exact encodeXYN_of_masked hmask
  | skp | sknp | ldVxDt | ldVxK | ldDtVx | ldStVx | addI | ldF | ldB | storeRegs | loadRegs =>
    exact encodeXKK_of_masked hmask

/-- One row of R95: a word that the row admits is the word of an instruction there, which decodes back; a word that decodes
is the word of its instruction, and the row admits that (`Laws.EncodesItsRow`). -/
theorem Instr.row_admits_iff (w : Opcode) (i : Instr) : i.row.admits w = true ↔ ∃ j, decode w = .instr j ∧ j.row = i.row := by
  constructor
  · intro h
    refine ⟨i.withFieldsOf w, ?_, i.row_withFieldsOf w⟩
    simpa only [Instr.encode_withFieldsOf h] using decodeOfEncodeIsTheInstruction (i.withFieldsOf w)
  · rintro ⟨j, hj, hrow⟩
    obtain ⟨hadmits, -⟩ := Laws.EncodesItsRow.all j
    rwa [encodeOfDecodeIsTheWord w j hj, hrow] at hadmits

/-- Settles O4: every row is the row of an instruction, and a word that no row admits decodes to no instruction. -/
theorem decoderFollowsTheOpcodeMap : Obligations.DecoderFollowsTheOpcodeMap := by
  have hrows (w : Opcode) (r : OpcodeRow) (hr : r ∈ opcodeMap) :
      r.admits w = true ↔ ∃ i, decode w = .instr i ∧ i.row = r := by
    obtain ⟨i, -, rfl⟩ := List.mem_map.mp hr
    exact Instr.row_admits_iff w i
  refine ⟨hrows, fun w => ⟨fun hnone => ?_, fun hunknown r hr => ?_⟩⟩
  · cases hw : decode w with
    | instr i =>
      obtain ⟨-, hmem⟩ := Laws.EncodesItsRow.all i
      have hadmits := (Instr.row_admits_iff w i).mpr ⟨i, hw, rfl⟩
      exact absurd ((hnone _ hmem).symm.trans hadmits) Bool.false_ne_true
    | unknown => rfl
    | truncated => exact absurd hw (Machine.decode_ne_truncated w)
  · refine Bool.eq_false_iff.mpr fun hadmits => ?_
    obtain ⟨i, hi, -⟩ := (hrows w r hr).mp hadmits
    cases hunknown.symm.trans hi

/-- Settles O1: each word is closed, and the decoder computes. -/
theorem writtenOutWordsDecode : Obligations.WrittenOutWordsDecode := by
  unfold Obligations.WrittenOutWordsDecode
  decide

end Sys2Proof

/-! SUPPORT. The step cycle (40_step_cycle.md R120 to R129): which aborting fault an instruction and a step take, said once as
a function of the state before; that it depends neither on the result ports nor on the keypad; and the tick of a committed
step. -/

namespace Sys2Proof

/-- The fault an instruction takes in a state, if it takes one (60_exceptions.md R222 to R225). -/
def Instr.fault (i : Instr) (s : Machine.State) : Option Machine.Fault :=
  match i with
  | .ret => if s.sp = 0 then some .stackUnderflow else none
  | .call _ => if s.sp.toNat = Config.maxDepth then some .stackOverflow else none
  | .skp x | .sknp x => if (s.getV x).toNat > 0xF then some (.keyIndexOutOfRange (s.getV x)) else none
  | .drw _ _ _ | .ldB _ | .storeRegs _ | .loadRegs _ =>
    if Machine.blockInBounds s.i i.blockLength then none else some (.memoryOutOfBounds (Machine.blockFaultAddr s.i))
  | _ => none

end Sys2Proof

namespace Sys2Proof.Machine

/-! ### The fault of an instruction -/

/-- An outcome that takes exactly the given fault, an aborting one and with no other change, or, given none, keeps the
report. -/
inductive TakesFault (s : State) : Option Fault → Host.Outcome State Fault Refusal → Prop
  | fault {f : Fault} : f.aborts = true → TakesFault s (some f) (.next { s with result := some f })
  | keep {t : State} : t.result = s.result → TakesFault s none (.next t)

theorem TakesFault.raise_if {s t : State} {c : Prop} [Decidable c] {f : Fault} (hf : f.aborts = true)
    (ht : t.result = s.result) : TakesFault s (if c then some f else none) (if c then s.raise f else .next t) := by
  split
  · exact .fault hf
  · exact .keep ht

theorem TakesFault.raise_unless {s t : State} {c : Prop} [Decidable c] {f : Fault} (hf : f.aborts = true)
    (ht : t.result = s.result) : TakesFault s (if c then none else some f) (if c then .next t else s.raise f) := by
  split
  · exact .keep ht
  · exact .fault hf

/-- What the outcome is, given the fault. -/
theorem TakesFault.eq_of_some {s : State} {f : Fault} {o : Host.Outcome State Fault Refusal} (h : TakesFault s (some f) o) :
    f.aborts = true ∧ o = .next { s with result := some f } := by
  cases h with
  | fault hf => exact ⟨hf, rfl⟩

/-- What the fault is, given an outcome with a report that was not there before. -/
theorem TakesFault.eq_some {s t : State} {f : Fault} {r : Option Fault} (h : TakesFault s r (.next t))
    (hf : t.result = some f) (hne : t.result ≠ s.result) : r = some f := by
  cases h with
  | fault => exact hf
  | keep hkeep => exact absurd hkeep hne

/-- Storing at I takes the fault of its block's length. -/
theorem State.storeAtI_takesFault (s : State) {bytes : List Byte} {n : Nat} (hlen : bytes.length = n) :
    TakesFault s (if blockInBounds s.i n then none else some (.memoryOutOfBounds (blockFaultAddr s.i)))
      (s.storeAtI bytes) :=
  hlen ▸ .raise_unless rfl rfl

/-- Every meaning takes the fault `Instr.fault` names for it. -/
theorem exec_takesFault (i : Instr) (s : State) : TakesFault s (i.fault s) (exec i s) := by
  cases i with
  | ret | call | skp | sknp => exact .raise_if rfl rfl
  | drw | loadRegs => exact .raise_unless rfl rfl
  | ldB x => exact s.storeAtI_takesFault (bcdDigits_length _)
  | storeRegs x => exact s.storeAtI_takesFault (s.firstRegs_length x)
  | _ => exact .keep rfl

/-- The meaning of an instruction that takes a fault. -/
theorem exec_of_fault {i : Instr} {s : State} {f : Fault} (h : i.fault s = some f) :
    f.aborts = true ∧ exec i s = .next { s with result := some f } :=
  TakesFault.eq_of_some (h ▸ exec_takesFault i s)

/-- A report that the meaning of an instruction did not find is the fault it took. -/
theorem fault_of_exec {i : Instr} {s t : State} {f : Fault} (h : exec i s = .next t) (hf : t.result = some f)
    (hne : t.result ≠ s.result) : i.fault s = some f :=
  TakesFault.eq_some (h ▸ exec_takesFault i s) hf hne

/-- The fault of an instruction depends neither on the result ports nor on the keypad (40_step_cycle.md R125, 47_keypad.md
R200). -/
theorem fault_with_result_keyIn (i : Instr) (s : State) (r : Option Fault) (k : InputPort 16) :
    i.fault { s with result := r, keyIn := k } = i.fault s := by
  cases i <;> rfl

theorem fault_beginStep (i : Instr) (s : State) : i.fault s.beginStep = i.fault s :=
  fault_with_result_keyIn i s none s.keyIn

/-! ### The aborting fault of a step -/

/-- The step from a state takes the aborting fault: its fetch does, or the instruction it runs (40_step_cycle.md R121, R123). -/
inductive State.AbortsWith (s : State) : Fault → Prop
  | fetch : 0xFFE < s.pc.toNat → s.AbortsWith (.memoryOutOfBounds (if s.pc.toNat = 0xFFF then 0x1000 else s.pc))
  | exec {i : Instr} {f : Fault} : s.Runs i → i.fault s = some f → s.AbortsWith f

/-- Whether the next step aborts, and how, depends neither on the result ports nor on the keypad. -/
theorem State.AbortsWith.with_result_keyIn {s : State} {f : Fault} (h : s.AbortsWith f) (r : Option Fault)
    (k : InputPort 16) : ({ s with result := r, keyIn := k } : State).AbortsWith f := by
  cases h with
  | fetch hpc => exact .fetch hpc
  | exec hr hf => exact .exec hr ((fault_with_result_keyIn ..).trans hf)

/-- Every step answers a next state. -/
theorem step_next (s : State) : ∃ t, step s = .next t := by
  rcases step_cases s with ⟨-, hs⟩ | ⟨-, -, hs⟩ | ⟨_, _, -, -, hs⟩ <;> exact ⟨_, hs⟩

/-- The step around the meaning of the instruction it runs. -/
theorem State.Runs.step_of_exec {s t : State} {i : Instr} (hr : s.Runs i) (h : exec i s.beginStep = .next t) :
    step s = .next t.finishStep := by
  obtain ⟨u, hu⟩ := step_next s
  obtain ⟨t', ht', rfl⟩ := hr.exec_of_step hu
  obtain rfl := Host.Outcome.next.inj (h.symm.trans ht')
  exact hu

/-- An aborted step changes nothing but the report and the keypad sample (40_step_cycle.md R123). -/
theorem State.AbortsWith.step {s : State} {f : Fault} (h : s.AbortsWith f) :
    step s = .next { s with result := some f, keyIn := s.keyIn.advance } := by
  cases h with
  | fetch hpc =>
    rcases step_cases s with ⟨-, hs⟩ | ⟨hle, -⟩ | ⟨i, -, hr, -⟩
    · exact hs
    · omega
    · have := hr.1; omega
  | exec hr hf =>
    obtain ⟨hab, hex⟩ := exec_of_fault ((fault_beginStep _ s).trans hf)
    exact (hr.step_of_exec hex).trans (congrArg Host.Outcome.next (State.finishStep_aborted _ hab))

/-- A step that reports an aborting fault took it. -/
theorem abortsWith_of_step {s t : State} {f : Fault} (h : step s = .next t) (hres : t.result = some f)
    (hab : f.aborts = true) : s.AbortsWith f := by
  rcases step_cases s with ⟨hpc, hs⟩ | ⟨-, -, hs⟩ | ⟨i, u, hr, hu, hs⟩ <;>
    obtain rfl := Host.Outcome.next.inj (hs.symm.trans h)
  · obtain rfl := Option.some.inj hres
    exact .fetch hpc
  · obtain rfl := Option.some.inj hres
    cases hab
  · rw [State.finishStep_result] at hres
    have hf : i.fault s.beginStep = some f := fault_of_exec hu hres (by simp [hres])
    exact .exec hr ((fault_beginStep i s).symm.trans hf)

/-- A run goes on from the state its first step answers. -/
theorem run_succ {M : Host.Core} {s t : M.State} (h : M.step s = .next t) (n : Nat) : M.run (n + 1) s = M.run n t := by
  rw [Host.Core.run, h]

/-- From a state that shows the aborting fault its next step takes, every run only uses up keypad samples. -/
theorem State.AbortsWith.run {s : State} {f : Fault} (h : s.AbortsWith f) (hres : s.result = some f) (n : Nat) :
    ∃ k, Sys2Proof.core.run n s = .next { s with keyIn := k } := by
  induction n generalizing s with
  | zero => exact ⟨s.keyIn, rfl⟩
  | succ n ih =>
    obtain ⟨k, hk⟩ := ih (h.with_result_keyIn (some f) s.keyIn.advance) rfl
    exact ⟨k, (run_succ (M := Sys2Proof.core) h.step n).trans (hk.trans (by rw [← hres]))⟩

theorem changesOnly_with_keyIn (s : State) (k : InputPort 16) : ChangesOnly [.keyIn] s { s with keyIn := k } := by
  intro p hp; cases p <;> simp_all [Part.same, State.getV, State.getSlot]

theorem changesOnly_with_result_keyIn (s : State) (r : Option Fault) (k : InputPort 16) :
    ChangesOnly [.result, .keyIn] s { s with result := r, keyIn := k } :=
  (changesOnly_with_result s r).trans (changesOnly_with_keyIn { s with result := r } k)

/-- Settles O9: a step that reports an aborting fault took it, and then `State.AbortsWith.step` gives the next state. -/
theorem abortedStepChangesNothing : Obligations.AbortedStepChangesNothing := by
  intro s t f h hres hab
  exact Host.Outcome.next.inj (h.symm.trans (abortsWith_of_step h hres hab).step)

/-- Settles O10: the state after an aborted step differs from the one before in the report and the keypad alone, on which the
next step's fault does not depend; the rest is induction on the number of steps. -/
theorem abortingFaultRepeatsForEver : Obligations.AbortingFaultRepeatsForEver := by
  intro s t f h hres hab n
  have ht : t.AbortsWith f := by
    rw [abortedStepChangesNothing s t f h hres hab]
    exact (abortsWith_of_step h hres hab).with_result_keyIn _ _
  obtain ⟨k, hk⟩ := ht.run hres n
  exact ⟨_, hk, hres, changesOnly_with_keyIn t k⟩

/-- Settles O7: the fault of a failed fetch, and the frame of an aborted step. -/
theorem fetchBeyondMemoryAborts : Obligations.FetchBeyondMemoryAborts := by
  intro s hpc
  exact ⟨_, (State.AbortsWith.fetch hpc).step, rfl, changesOnly_with_result_keyIn s _ _⟩

/-- Settles O8. -/
theorem stepAlwaysAnswersANextState : Obligations.StepAlwaysAnswersANextState := step_next

/-- Settles O14: the step begins by clearing the report, so two states that differ in it alone become one. -/
theorem resultDoesNotAffectTheNextStep : Obligations.ResultDoesNotAffectTheNextStep := by
  intro s r
  have hbegin : ({ s with result := r } : State).beginStep = s.beginStep := rfl
  unfold step
  rw [hbegin]

/-! ### The committed step -/

/-- The end of a step in one record: the tick, unless the step was aborted, and the keypad sample. -/
theorem State.finishStep_eq (s : State) : s.finishStep = { s with
    dt := if s.aborted then s.dt else tickTimer s.dt
    st := if s.aborted then s.st else tickTimer s.st
    keyIn := s.keyIn.advance } := by
  cases h : s.aborted with
  | true => exact State.finishStep_aborted s h
  | false => exact State.finishStep_committed s h

/-- Settles O5: the instruction's meaning stands between the clearing of the report and the end of the step. -/
theorem stepRunsTheDecodedInstruction : Obligations.StepRunsTheDecodedInstruction := by
  intro s t i hr h
  exact (hr.step_of_exec h).trans (congrArg Host.Outcome.next t.finishStep_eq)

/-- Settles O6: the word at PC excludes the other two cases of `step_cases`. -/
theorem unknownOpcodeStep : Obligations.UnknownOpcodeStep := by
  intro s hpc hd
  rcases step_cases s with ⟨hout, -⟩ | ⟨-, -, hs⟩ | ⟨i, -, hr, -⟩
  · omega
  · exact ⟨_, hs, rfl, rfl, rfl, rfl, rfl, changesOnly_stepParts s _ _ _ _ _⟩
  · exact absurd (hd.symm.trans hr.2) (by simp)

theorem tickTimer_toNat (b : Byte) : (tickTimer b).toNat = b.toNat - 1 := by
  unfold tickTimer
  split
  · simp_all
  · bv_omega

theorem dt_mem_parts {i : Instr} : Part.dt ∈ i.parts ↔ ∃ x, i = .ldDtVx x := by
  cases i <;> simp [Instr.parts]

theorem st_mem_parts {i : Instr} : Part.st ∈ i.parts ↔ ∃ x, i = .ldStVx x := by
  cases i <;> simp [Instr.parts]

/-- A committed step ticks both timers as they stand at its end, and each is as before the step unless the instruction that
ran has it among its parts (40_step_cycle.md R124). -/
theorem committed_step_ticks {s t : State} (h : step s = .next t) (hc : t.aborted = false) :
    ∃ u : State, t.dt = tickTimer u.dt ∧ t.st = tickTimer u.st ∧
      ∀ p ∈ [Part.dt, Part.st], p.same s u ∨ ∃ i, s.Runs i ∧ p ∈ i.parts := by
  rcases step_cases s with ⟨-, hs⟩ | ⟨-, -, hs⟩ | ⟨i, u, hr, hu, hs⟩ <;>
    obtain rfl := Host.Outcome.next.inj (hs.symm.trans h)
  · cases hc
  · exact ⟨s, rfl, rfl, fun p hp => .inl (by fin_cases hp <;> rfl)⟩
  · have hcu : u.aborted = false := by simpa [State.aborted] using hc
    refine ⟨u, by simp [State.finishStep_dt, hcu], by simp [State.finishStep_st, hcu], fun p hp => ?_⟩
    by_cases hi : p ∈ i.parts
    · exact .inr ⟨i, hr, hi⟩
    · have hframe := (changesOnly_beginStep s).trans (changesOnly_of_exec hu)
      refine .inl (hframe p ?_)
      fin_cases hp <;> simp_all

/-- Settles O12: only Fx15 and Fx18 have a timer among their parts, and the tick takes 1 from a nonzero timer. -/
theorem committedStepTicksTheTimersOnce : Obligations.CommittedStepTicksTheTimersOnce := by
  intro s t h hc
  obtain ⟨u, hdt, hst, hkept⟩ := committed_step_ticks h hc
  refine ⟨fun hno => ?_, fun hno => ?_⟩
  · rcases hkept .dt (by simp) with hsame | ⟨i, hr, hi⟩
    · rw [hdt, tickTimer_toNat, show u.dt = s.dt from hsame]
    · obtain ⟨x, rfl⟩ := dt_mem_parts.mp hi
      exact absurd hr (hno x)
  · rcases hkept .st (by simp) with hsame | ⟨i, hr, hi⟩
    · rw [hst, tickTimer_toNat, show u.st = s.st from hsame]
    · obtain ⟨x, rfl⟩ := st_mem_parts.mp hi
      exact absurd hr (hno x)

end Sys2Proof.Machine

/-! SUPPORT. Control transfer (41_control_transfer.md R140 to R143): what RET, JP, CALL and JP V0 do when they complete, every
way an instruction moves PC, and the invariant of the core. -/

namespace Sys2Proof.Machine

/-! ### The targets -/

@[simp] theorem addrOfNNN_toNat (nnn : BitVec 12) : (addrOfNNN nnn).toNat = nnn.toNat :=
  BitVec.toNat_setWidth_of_le (by decide)

@[simp] theorem addrOfByte_toNat (b : Byte) : (addrOfByte b).toNat = b.toNat :=
  BitVec.toNat_setWidth_of_le (by decide)

/-- The target of JP V0 does not wrap: 0xFFF + 0xFF lies below 65536 (R143). -/
theorem addrOfNNN_add_addrOfByte_toNat (nnn : BitVec 12) (b : Byte) :
    (addrOfNNN nnn + addrOfByte b).toNat = nnn.toNat + b.toNat := by
  rw [BitVec.toNat_add, addrOfNNN_toNat, addrOfByte_toNat]
  have hnnn := nnn.isLt
  have hb := b.isLt
  omega

/-! ### RET, JP, CALL, JP V0 -/

theorem exec_ret_of_sp_ne {s : State} (h : s.sp ≠ 0) :
    exec .ret s = .next { s with pc := s.getSlot s.sp + 2, sp := s.sp - 1 } :=
  if_neg h

theorem exec_call_of_sp_ne {nnn : BitVec 12} {s : State} (h : s.sp ≠ 15) :
    exec (.call nnn) s = .next (({ s with sp := s.sp + 1 } : State).setSlot (s.sp + 1) s.pc |>.jumpTo (addrOfNNN nnn)) :=
  if_neg fun hfull => h (BitVec.eq_of_toNat_eq hfull)

/-- Settles O30. -/
theorem returnResult : Obligations.ReturnResult := by
  intro s h
  refine ⟨_, exec_ret_of_sp_ne h, rfl, ?_, changesOnly_with_pc_sp s _ _⟩
  show (s.sp - 1).toNat + 1 = s.sp.toNat
  bv_omega

/-- Settles O31: the arm of the decoder is the one of the leading nibble. -/
theorem jumpResult : Obligations.JumpResult := by
  refine ⟨fun w hop => ?_, fun nnn s => ⟨_, rfl, addrOfNNN_toNat nnn, changesOnly_jumpTo s _⟩⟩
  unfold decode
  rw [hop]
  rfl

/-- Settles O32: below 15 the raised SP does not wrap, so it names one slot, the one above the old SP. -/
theorem callResult : Obligations.CallResult := by
  intro nnn s h
  have hsp : (s.sp + 1).toNat = s.sp.toNat + 1 := by bv_omega
  refine ⟨_, exec_call_of_sp_ne h, hsp, addrOfNNN_toNat nnn, fun k => ?_, ?_⟩
  · refine (State.getSlot_setSlot _ k _ _).trans (if_congr ?_ rfl rfl)
    rw [BitVec.toNat_eq, hsp]
  · refine ((changesOnly_with_sp s _).trans ((changesOnly_setSlot _ _ _).trans (changesOnly_jumpTo _ _))).mono ?_
    decide

/-- Settles O34. -/
theorem jumpPlusV0Result : Obligations.JumpPlusV0Result := fun nnn s =>
  ⟨_, rfl, addrOfNNN_add_addrOfByte_toNat nnn (s.getV 0), changesOnly_jumpTo s _⟩

/-- Settles O33: RET reads the slot its SP names, which is the one CALL wrote. -/
theorem returnUndoesCall : Obligations.ReturnUndoesCall := by
  intro nnn s t t' h ht hsp' hstack'
  obtain ⟨_, hcall, hsp, -, hslots, -⟩ := callResult nnn s h
  obtain rfl := Host.Outcome.next.inj (ht.symm.trans hcall)
  have hslot : t'.getSlot t'.sp = s.pc := by
    calc t'.getSlot t'.sp = t.getSlot t.sp := by simp only [State.getSlot, hsp', hstack']
      _ = s.pc := (hslots t.sp).trans (if_pos hsp)
  obtain ⟨u, hu, hpc, husp, -⟩ := returnResult t' (by bv_omega)
  exact ⟨u, hu, hslot ▸ hpc, BitVec.eq_of_toNat_eq (by rw [hsp'] at husp; omega)⟩

/-! ### The invariant: PC -/

/-- Every return address held is one a CALL can be fetched from: `State.Inv.returnBound`. -/
def State.ReturnsBounded (s : State) : Prop :=
  ∀ k : BitVec 4, 1 ≤ k.toNat → k.toNat ≤ s.sp.toNat → (s.getSlot k).toNat ≤ 0xFFE

/-- The values an instruction that completes can leave in PC (40_step_cycle.md R122, 41_control_transfer.md R140 to R143). It
leaves PC alone only where Fx0A waits for a key. -/
inductive State.MovesPcTo (s : State) : Addr → Prop
  | stay : s.MovesPcTo s.pc
  | fallThrough : s.MovesPcTo (s.pc + 2)
  | skip : s.MovesPcTo (s.pc + 4)
  | ret : s.sp ≠ 0 → s.MovesPcTo (s.getSlot s.sp + 2)
  | jump (nnn : BitVec 12) : s.MovesPcTo (addrOfNNN nnn)
  | jumpV0 (nnn : BitVec 12) : s.MovesPcTo (addrOfNNN nnn + addrOfByte (s.getV 0))

theorem State.movesPcTo_skipIf (s : State) (c : Bool) : s.MovesPcTo (s.skipIf c).pc := by
  cases c with
  | true => exact .skip
  | false => exact .fallThrough

theorem State.movesPcTo_keyWait (s : State) (x : Reg) (key : Option Nat) : s.MovesPcTo (s.keyWait x key).pc := by
  cases key with
  | none => exact .stay
  | some k => exact .fallThrough

theorem exec_movesPcTo (i : Instr) (s : State) : AbortsOr s (fun t => s.MovesPcTo t.pc) (exec i s) := by
  cases i with
  | ret => exact .raise_if rfl .ret
  | jp nnn => exact .next (.jump nnn)
  | call nnn => exact .raise_if rfl fun _ => .jump nnn
  | jpV0 nnn => exact .next (.jumpV0 nnn)
  | seImm | sneImm | seReg | sneReg => exact .next (s.movesPcTo_skipIf _)
  | skp | sknp => exact .raise_if rfl fun _ => s.movesPcTo_skipIf _
  | ldVxK x => exact .next (s.movesPcTo_keyWait x _)
  | drw | ldB | storeRegs | loadRegs => exact .raise_unless rfl fun _ => .fallThrough
  | _ => exact .next .fallThrough

/-- From where a fetch succeeds, PC moves to 0x10FE at most, which is JP V0's largest target. -/
theorem State.MovesPcTo.toNat_le {s : State} {a : Addr} (h : s.MovesPcTo a) (hpc : s.pc.toNat ≤ 0xFFE)
    (hret : s.ReturnsBounded) : a.toNat ≤ 0x10FE := by
  cases h with
  | stay => omega
  | fallThrough | skip => bv_omega
  | ret hsp =>
    have hslot : (s.getSlot s.sp).toNat ≤ 0xFFE := hret s.sp (by bv_omega) le_rfl
    bv_omega
  | jump nnn =>
    have hnnn := nnn.isLt
    rw [addrOfNNN_toNat]
    omega
  | jumpV0 nnn =>
    have hnnn := nnn.isLt
    have hb := (s.getV 0).isLt
    rw [addrOfNNN_add_addrOfByte_toNat]
    omega

/-- A failed fetch leaves PC, the Unknown step falls through, and an instruction moves PC in one of its ways. -/
theorem step_pc_toNat_le {s t : State} (hinv : s.Inv) (h : step s = .next t) : t.pc.toNat ≤ 0x10FE := by
  rcases step_cases s with ⟨-, hs⟩ | ⟨hpc, -, hs⟩ | ⟨i, u, hr, hu, hs⟩ <;>
    obtain rfl := Host.Outcome.next.inj (hs.symm.trans h)
  · exact hinv.pcBound
  · exact State.MovesPcTo.fallThrough.toNat_le hpc hinv.returnBound
  · rw [State.finishStep_pc]
    rcases (exec_movesPcTo i s.beginStep).next_cases hu with ⟨f, -, rfl⟩ | hmoves
    · exact hinv.pcBound
    · exact hmoves.toNat_le hr.1 hinv.returnBound

/-! ### The invariant: the return addresses -/

theorem State.ReturnsBounded.of_same {s t : State} (h : s.ReturnsBounded) (hsp : Part.sp.same s t)
    (hstack : Part.stack.same s t) : t.ReturnsBounded := by
  intro k hpos hk
  rw [hstack k]
  exact h k hpos (hsp ▸ hk)

/-- CALL adds its own address, RET takes the newest away, and no other instruction has SP or the stack among its parts. -/
theorem exec_returnsBounded (i : Instr) {s : State} (hpc : s.pc.toNat ≤ 0xFFE) (h : s.ReturnsBounded) :
    AbortsOr s State.ReturnsBounded (exec i s) := by
  cases i with
  | call nnn =>
    refine (exec_call_stack nnn s).imp fun t ⟨hsp, hslots⟩ k hpos hk => ?_
    rw [hslots k]
    split
    · exact hpc
    · exact h k hpos (by omega)
  | ret =>
    refine .raise_if rfl fun hne k hpos hk => h k hpos (hk.trans ?_)
    show (s.sp - 1).toNat ≤ s.sp.toNat
    bv_omega
  | _ =>
    exact (exec_changesOnly _ s).imp fun t ht =>
      h.of_same (ht .sp (by simp [Instr.parts])) (ht .stack (by simp [Instr.parts]))

theorem step_returnsBounded {s t : State} (hret : s.ReturnsBounded) (h : step s = .next t) : t.ReturnsBounded := by
  rcases step_runs_or_changesOnly h with ⟨i, hr⟩ | hframe
  · obtain ⟨u, hu, rfl⟩ := hr.exec_of_step h
    have hbounded : u.ReturnsBounded := by
      rcases (exec_returnsBounded i (s := s.beginStep) hr.1 hret).next_cases hu with ⟨f, -, rfl⟩ | hbounded
      · exact hret
      · exact hbounded
    exact hbounded.of_same u.finishStep_sp u.finishStep_getSlot
  · exact hret.of_same (hframe .sp (by decide)) (hframe .stack (by decide))

/-- Settles O28: one lemma for each part of the invariant. -/
theorem stepKeepsTheInvariant : Obligations.StepKeepsTheInvariant := fun s t hinv h =>
  ⟨stepKeepsMemoryCanonical s t hinv.canonical h, step_pc_toNat_le hinv h, step_returnsBounded hinv.returnBound h⟩

end Sys2Proof.Machine

/-! SUPPORT. The skips on register values (42_skips.md R150 to R153): the condition an instruction hands to `State.skipIf` as a
Bool is the one the rules state. -/

namespace Sys2Proof.Machine

/-- What an instruction that skips on `b` does, under the condition `c` that `b` decides (40_step_cycle.md R122). -/
theorem exec_result_of_skipIf {i : Instr} {s : State} {b : Bool} {c : Prop} [Decidable c]
    (h : exec i s = .next (s.skipIf b)) (hb : b = true ↔ c) :
    ∃ t, exec i s = .next t ∧ t.pc = (if c then s.pc + 4 else s.pc + 2) ∧ ChangesOnly [.pc] s t :=
  ⟨_, h, if_congr hb rfl rfl, changesOnly_skipIf s b⟩

/-- Settles O36: every word of either leading nibble decodes alike, and `kk` is compared with the register. -/
theorem skipOnImmediate : Obligations.SkipOnImmediate := by
  refine ⟨fun w hop => ?_, fun w hop => ?_, fun x kk s => ⟨?_, ?_⟩⟩
  · rw [decode, hop]; rfl
  · rw [decode, hop]; rfl
  · exact exec_result_of_skipIf rfl beq_iff_eq
  · exact exec_result_of_skipIf rfl bne_iff_ne

/-- Settles O37: the arm of either leading nibble asks for a low nibble of 0 (D24), and the two registers are compared. -/
theorem skipOnRegister : Obligations.SkipOnRegister := by
  refine ⟨fun w hop => ?_, fun w hop => ?_, fun x y s => ⟨?_, ?_⟩⟩
  · rw [decode, hop]; rfl
  · rw [decode, hop]; rfl
  · exact exec_result_of_skipIf rfl beq_iff_eq
  · exact exec_result_of_skipIf rfl bne_iff_ne

end Sys2Proof.Machine

/-! SUPPORT. Register loads and the ALU (43_alu.md R160 to R172): what an instruction that writes one register, and one that
writes a flag after it, leaves in every register; the flags and the results are those of the exact numbers. -/

namespace Sys2Proof.Machine

/-! ### One register written -/

/-- What an instruction does that writes one register and falls through (40_step_cycle.md R122). -/
theorem exec_result_of_setV {i : Instr} {s : State} {x : Reg} {b : Byte} (h : exec i s = .next (s.setV x b).fallThrough) :
    ∃ t, exec i s = .next t ∧ (∀ j, t.getV j = if j = x then b else s.getV j) ∧ t.pc = s.pc + 2 ∧
      ChangesOnly [.regs, .pc] s t :=
  ⟨_, h, fun j => s.getV_setV x j b, rfl, (changesOnly_setV s x b).fallThrough⟩

/-- The same, number by number. -/
theorem exec_toNat_of_setV {i : Instr} {s : State} {x : Reg} {b : Byte} {n : Nat}
    (h : exec i s = .next (s.setV x b).fallThrough) (hb : b.toNat = n) :
    ∃ t, exec i s = .next t ∧ (∀ j, (t.getV j).toNat = if j = x then n else (s.getV j).toNat) ∧ t.pc = s.pc + 2 ∧
      ChangesOnly [.regs, .pc] s t := by
  obtain ⟨t, ht, hv, hrest⟩ := exec_result_of_setV h
  exact ⟨t, ht, fun j => by rw [hv, apply_ite BitVec.toNat, hb], hrest⟩

/-- The same, bit by bit. -/
theorem exec_bits_of_setV {i : Instr} {s : State} {x : Reg} {b : Byte} {bit : Nat → Bool}
    (h : exec i s = .next (s.setV x b).fallThrough) (hb : ∀ k, b.getLsbD k = bit k) :
    ∃ t, exec i s = .next t ∧ (∀ j k, (t.getV j).getLsbD k = if j = x then bit k else (s.getV j).getLsbD k) ∧
      t.pc = s.pc + 2 ∧ ChangesOnly [.regs, .pc] s t := by
  obtain ⟨t, ht, hv, hrest⟩ := exec_result_of_setV h
  exact ⟨t, ht, fun j k => by rw [hv, apply_ite (BitVec.getLsbD · k), hb], hrest⟩

/-- Settles O38: either leading nibble has one arm of the decoder, and VF is written only as a destination. -/
theorem loadAndAddImmediate : Obligations.LoadAndAddImmediate := by
  refine ⟨fun w hop => ?_, fun w hop => ?_, fun x kk s => ⟨?_, ?_⟩⟩
  · rw [decode, hop]; rfl
  · rw [decode, hop]; rfl
  · exact exec_result_of_setV rfl
  · exact exec_toNat_of_setV rfl (BitVec.toNat_add _ _)

/-- Settles O39: the bits of the value written are those of the bitwise operation. -/
theorem copyAndBitwiseResults : Obligations.CopyAndBitwiseResults := by
  refine fun x y s => ⟨?_, ?_, ?_, ?_⟩
  · exact exec_result_of_setV rfl
  · exact exec_bits_of_setV rfl fun _ => BitVec.getLsbD_or
  · exact exec_bits_of_setV rfl fun _ => BitVec.getLsbD_and
  · exact exec_bits_of_setV rfl fun _ => BitVec.getLsbD_xor

/-! ### A register written, then the flag -/

/-- What an instruction does that writes a register, then the flag to VF, and falls through: VF holds the flag even as the
destination (43_alu.md R171). -/
theorem exec_toNat_of_setVFlag {i : Instr} {s : State} {x : Reg} {b flag : Byte} {n f : Nat}
    (h : exec i s = .next (s.setVFlag x b flag).fallThrough) (hb : b.toNat = n) (hflag : flag.toNat = f) :
    ∃ t, exec i s = .next t ∧ (∀ j, (t.getV j).toNat = if j = 15 then f else if j = x then n else (s.getV j).toNat) ∧
      t.pc = s.pc + 2 ∧ ChangesOnly [.regs, .pc] s t := by
  refine ⟨_, h, fun j => ?_, rfl, (changesOnly_setVFlag s x b flag).fallThrough⟩
  rw [State.fallThrough_getV, State.setVFlag_eq, State.getV_setV, State.getV_setV, apply_ite BitVec.toNat,
    apply_ite BitVec.toNat, hb, hflag]

/-! ### The flags -/

theorem flagByte_toNat (c : Bool) : (flagByte c).toNat = c.toNat := by
  cases c <;> rfl

theorem flagByte_decide_toNat (c : Prop) [Decidable c] : (flagByte (decide c)).toNat = if c then 1 else 0 := by
  by_cases h : c <;> simp [h, flagByte]

/-- The flag of a bit, as a digit of the number (43_alu.md R168, R170). -/
theorem flagByte_getLsbD_toNat (b : Byte) (k : Nat) : (flagByte (b.getLsbD k)).toNat = b.toNat / 2 ^ k % 2 := by
  rw [flagByte_toNat, BitVec.getLsbD, Nat.toNat_testBit]

theorem shrFlag_toNat (b : Byte) : (shrFlag b).toNat = b.toNat % 2 := by
  rw [shrFlag, flagByte_getLsbD_toNat, Nat.pow_zero, Nat.div_one]

theorem shlFlag_toNat (b : Byte) : (shlFlag b).toNat = b.toNat / 128 := by
  have hb := b.isLt
  rw [shlFlag, flagByte_getLsbD_toNat]
  omega

/-! ### The arithmetic, on the exact numbers -/

/-- The difference of two bytes, modulo 256 (43_alu.md R167, R169). -/
theorem toNat_byte_sub (a b : Byte) : (a - b).toNat = (a.toNat + 256 - b.toNat) % 256 := by
  have hb := b.isLt
  rw [BitVec.toNat_sub]
  omega

theorem toNat_shiftRight_one (b : Byte) : (b >>> 1).toNat = b.toNat / 2 := by
  rw [BitVec.toNat_ushiftRight, Nat.shiftRight_one]

theorem toNat_shiftLeft_one (b : Byte) : (b <<< 1).toNat = 2 * b.toNat % 256 := by
  rw [BitVec.toNat_shiftLeft, Nat.shiftLeft_eq, Nat.pow_one, Nat.mul_comm]

/-! ### The flag-setting instructions -/

/-- Settles O40: the carry is a condition on the sum before it is taken modulo 256. -/
theorem addRegisterResultAndCarry : Obligations.AddRegisterResultAndCarry := fun _ _ _ =>
  exec_toNat_of_setVFlag rfl (BitVec.toNat_add _ _) (flagByte_decide_toNat _)

/-- Settles O41: the flag is the strict comparison of the operands (C4). -/
theorem subResultAndFlag : Obligations.SubResultAndFlag := fun _ _ _ =>
  exec_toNat_of_setVFlag rfl (toNat_byte_sub _ _) (flagByte_decide_toNat _)

/-- Settles O42: SUBN takes the same difference with the operands exchanged, and its flag counts equality. -/
theorem subnResultAndFlag : Obligations.SubnResultAndFlag := fun _ _ _ =>
  exec_toNat_of_setVFlag rfl (toNat_byte_sub _ _) (flagByte_decide_toNat _)

/-- Settles O43: the ignored field y has no part in the result or in the flag (R98). -/
theorem shiftResultsAndFlag : Obligations.ShiftResultsAndFlag := fun _ _ _ =>
  ⟨exec_toNat_of_setVFlag rfl (toNat_shiftRight_one _) (shrFlag_toNat _),
    exec_toNat_of_setVFlag rfl (toNat_shiftLeft_one _) (shlFlag_toNat _)⟩

end Sys2Proof.Machine

/-! SUPPORT. The index register and the memory transfers (44_index_memory.md R180 to R187): what an instruction that writes I,
and one that stores a block at I, leaves behind; Fx65 after Fx55; the fault of a block out of bounds. -/

namespace Sys2Proof.Machine

/-! ### The index register -/

/-- What an instruction does that writes I and falls through (40_step_cycle.md R122). -/
theorem exec_result_of_with_i {i : Instr} {s : State} {a : Addr} {n : Nat}
    (h : exec i s = .next ({ s with i := a } : State).fallThrough) (ha : a.toNat = n) :
    ∃ t, exec i s = .next t ∧ t.i.toNat = n ∧ t.pc = s.pc + 2 ∧ ChangesOnly [.index, .pc] s t :=
  ⟨_, h, ha, rfl, (changesOnly_with_i s a).fallThrough⟩

theorem add_addrOfByte_toNat (a : Addr) (b : Byte) : (a + addrOfByte b).toNat = (a.toNat + b.toNat) % 65536 := by
  rw [BitVec.toNat_add, addrOfByte_toNat]

/-- The address of a glyph does not wrap: 0x50 + 5 * 0xFF lies below 65536 (R182). -/
theorem glyphAddr_toNat (b : Byte) : (glyphAddr b).toNat = 0x50 + 5 * b.toNat := by
  have hb := b.isLt
  rw [glyphAddr, fontBase, BitVec.toNat_ofNat, Nat.mod_eq_of_lt (by omega)]

/-- Settles O44. -/
theorem indexRegisterResults : Obligations.IndexRegisterResults := fun s =>
  ⟨fun nnn => exec_result_of_with_i rfl (addrOfNNN_toNat nnn),
    fun x => exec_result_of_with_i rfl (add_addrOfByte_toNat s.i (s.getV x)),
    fun x => exec_result_of_with_i rfl (glyphAddr_toNat (s.getV x))⟩

/-! ### A block stored at I -/

/-- What an instruction does that stores the `n + 1` bytes of a block in bounds at I: byte `j` of the block lies at I + j, and
no byte outside the block changes (R183, R184). -/
theorem exec_result_of_storeAtI {i : Instr} {s : State} {bytes : List Byte} {n : Nat} (h : exec i s = s.storeAtI bytes)
    (hlen : bytes.length = n + 1) (hwf : s.mem.wf = true) (hin : s.i.toNat + n ≤ 0xFFF) :
    ∃ t, exec i s = .next t ∧ (∀ j ≤ n, t.mem.read (s.i.toNat + j) = bytes.getD j 0) ∧
      (∀ a, a < s.i.toNat ∨ s.i.toNat + n < a → t.mem.read a = s.mem.read a) ∧
      t.pc = s.pc + 2 ∧ ChangesOnly [.mem, .pc] s t := by
  have hread (a : Nat) := Memory.read_writeBytes a bytes hwf (a := s.i.toNat) (by simp only [hlen, Config.memSize]; omega)
  have hstore := State.storeAtI_in ((blockInBounds_iff s.i bytes.length).mpr (.inr (by omega)))
  refine ⟨_, h.trans hstore, fun j hj => ?_, fun a ha => ?_, rfl,
    (changesOnly_with_mem s (s.mem.writeBytes s.i.toNat bytes)).fallThrough⟩
  · rw [hread, if_pos (by omega), Nat.add_sub_cancel_left]
  · rw [hread, if_neg (by omega)]

theorem bcdDigits_toNat (b : Byte) :
    (bcdDigits b).map BitVec.toNat = [b.toNat / 100, b.toNat / 10 % 10, b.toNat % 10] := by
  have hb := b.isLt
  simp only [bcdDigits, List.map_cons, List.map_nil, BitVec.toNat_ofNat, List.cons.injEq, and_true]
  omega

/-- Settles O45: the three bytes stored are the digits, each of which fits its byte. -/
theorem storeDecimalDigits : Obligations.StoreDecimalDigits := by
  intro x s hwf hin
  obtain ⟨t, ht, hblock, hrest⟩ := exec_result_of_storeAtI (i := .ldB x) rfl (bcdDigits_length _) hwf hin
  have hdigit (j : Nat) (hj : j ≤ 2) : (t.mem.read (s.i.toNat + j)).toNat =
      [(s.getV x).toNat / 100, (s.getV x).toNat / 10 % 10, (s.getV x).toNat % 10].getD j 0 := by
    rw [hblock j hj, ← bcdDigits_toNat]
    exact (List.getD_map _ 0 BitVec.toNat).symm
  exact ⟨t, ht, hdigit 0 (by decide), hdigit 1 (by decide), hdigit 2 (by decide), hrest⟩

/-- Settles O46: byte `j` of the block is Vj. -/
theorem storeRegisterBlock : Obligations.StoreRegisterBlock := by
  intro x s hwf hin
  obtain ⟨t, ht, hblock, hrest⟩ := exec_result_of_storeAtI (i := .storeRegs x) rfl (s.firstRegs_length x) hwf hin
  exact ⟨t, ht, fun j hj => (hblock j hj).trans (s.firstRegs_getD x j hj), hrest⟩

/-! ### A block loaded from I -/

/-- Fx65 in bounds loads the first `x + 1` registers and falls through (R185). -/
theorem exec_loadRegs_in {x : Reg} {s : State} (h : s.i.toNat + x.val ≤ 0xFFF) :
    exec (.loadRegs x) s =
      .next ({ s with v := loadBlock s.mem s.i.toNat (x.val + 1) s.v } : State).fallThrough :=
  if_pos ((blockInBounds_iff _ _).mpr (.inr (by omega)))

/-- Settles O47: `loadBlock` writes exactly the registers up to Vx. -/
theorem loadRegisterBlock : Obligations.LoadRegisterBlock := fun _ s hin =>
  ⟨_, exec_loadRegs_in hin, fun j => (loadBlock_get _ _ _ s.v j.val j.isLt).trans (if_congr Nat.lt_succ_iff rfl rfl),
    rfl, (changesOnly_with_v s _).fallThrough⟩

/-- Settles O48: Fx55 leaves I and the registers, so Fx65 reads the block that was stored. -/
theorem loadAfterStoreGivesTheRegistersBack : Obligations.LoadAfterStoreGivesTheRegistersBack := by
  intro x s t u hwf hin ht hu j
  obtain ⟨_, hstore, hblock, -, -, hframe⟩ := storeRegisterBlock x s hwf hin
  obtain rfl := Host.Outcome.next.inj (ht.symm.trans hstore)
  have hi : t.i = s.i := hframe .index (by decide)
  have hv : t.getV j = s.getV j := hframe .regs (by decide) j
  obtain ⟨_, hload, hregs, -⟩ := loadRegisterBlock x t (by rwa [hi])
  obtain rfl := Host.Outcome.next.inj (hu.symm.trans hload)
  rw [hregs, hi, hv]
  split
  · exact hblock j ‹_›
  · rfl

/-! ### A block out of bounds -/

/-- An instruction whose block reaches above 0xFFF takes MemoryOutOfBounds; only Dxyn with n > 0, Fx33, Fx55 and Fx65 have a
block (R187). -/
theorem fault_of_block_out {i : Instr} {s : State} (hpos : 0 < i.blockLength)
    (hout : 0xFFF < s.i.toNat + i.blockLength - 1) : i.fault s = some (.memoryOutOfBounds (blockFaultAddr s.i)) := by
  have hbounds : ¬ blockInBounds s.i i.blockLength = true := by
    rw [blockInBounds_iff]
    omega
  cases i with
  | drw | ldB | storeRegs | loadRegs => exact if_neg hbounds
  | _ => exact absurd hpos (Nat.lt_irrefl 0)

/-- Settles O50: taking an aborting fault changes nothing but the report. -/
theorem blockFaults : Obligations.BlockFaults := fun _ _ hpos hout =>
  (exec_of_fault (fault_of_block_out hpos hout)).2

end Sys2Proof.Machine

/-! SUPPORT. The random byte (45_random.md R190, R191): what RND does with the draw it takes, and that no other instruction
depends on the draws or takes one. -/

namespace Sys2Proof.Machine

/-! ### RND -/

/-- RND completes on every state, the current draw being settled or free. -/
theorem exec_rnd_result (x : Reg) (kk : Byte) (s : State) :
    ∃ t, exec (.rnd x kk) s = .next t ∧ (∀ j, t.getV j = if j = x then s.rnd &&& kk else s.getV j) ∧
      t.rndIn = s.rndIn.advance ∧ t.pc = s.pc + 2 ∧ ChangesOnly [.regs, .pc, .rndIn] s t :=
  ⟨_, rfl, fun j => s.getV_setV x j (s.rnd &&& kk), rfl, rfl,
    ((changesOnly_setV s x (s.rnd &&& kk)).trans (changesOnly_with_rndIn _ s.rndIn.advance)).fallThrough.mono (by simp)⟩

theorem State.rnd_of_settled {s : State} {draw : Byte} {rest : List Byte} {taken : Nat}
    (h : s.rndIn = ⟨draw :: rest, taken⟩) : s.rnd = draw := by
  rw [State.rnd, h, InputPort.current]

/-- Settles O51: the current draw is the first one settled, and taking it leaves the rest. -/
theorem randomByteResult : Obligations.RandomByteResult := by
  intro x kk draw rest taken s hdraw
  obtain ⟨t, ht, hregs, hrnd, hrest⟩ := exec_rnd_result x kk s
  rw [State.rnd_of_settled hdraw] at hregs
  rw [hdraw] at hrnd
  exact ⟨t, ht, hregs, hrnd, hrest⟩

/-- Settles O52: a bit of the AND is 0 where kk has a 0. -/
theorem randomByteIsMasked : Obligations.RandomByteIsMasked := by
  intro x kk s
  obtain ⟨t, ht, hregs, hrnd, hrest⟩ := exec_rnd_result x kk s
  have hx : t.getV x = s.rnd &&& kk := (hregs x).trans (if_pos rfl)
  refine ⟨t, ht, hx, fun k hk => ?_, fun j hj => (hregs j).trans (if_neg hj), hrnd, congrArg InputPort.taken hrnd, hrest⟩
  rw [hx, BitVec.getLsbD_and, hk, Bool.and_false]

/-! ### Every other instruction -/

/-- A change of the next state passes under a condition when it does so on either side of it. -/
theorem ite_eq_mapNext_ite {change : State → State} {c : Prop} [Decidable c] {a b a' b' : Host.Outcome State Fault Refusal}
    (ha : a' = mapNext change a) (hb : b' = mapNext change b) :
    (if c then a' else b') = mapNext change (if c then a else b) := by
  rw [apply_ite (mapNext change), ha, hb]

/-- Settles O22: the draws stand in no value an instruction other than RND computes, and in no condition on which it takes a
fault. -/
theorem randomByteIsTakenOnlyByRnd : Obligations.RandomByteIsTakenOnlyByRnd := by
  intro i s p hne
  cases i with
  | rnd x kk => exact absurd rfl (hne x kk)
  | ret | call | skp | sknp | drw | ldB | storeRegs | loadRegs => exact ite_eq_mapNext_ite rfl rfl
  | _ => rfl

end Sys2Proof.Machine

/-! SUPPORT. The display (46_display.md R195 to R197): the word of CLS and what it does, what DRW leaves in the framebuffer and in
VF in terms of the cells a sprite falls on, and the second of two equal draws. -/

namespace Sys2Proof

/-- An instruction has exactly one word. -/
theorem decode_eq_instr_iff (w : Opcode) (i : Instr) : decode w = .instr i ↔ w = encode i := by
  constructor
  · exact fun h => (encodeOfDecodeIsTheWord w i h).symm
  · rintro rfl
    exact decodeOfEncodeIsTheInstruction i

end Sys2Proof

namespace Sys2Proof.Machine

/-! ### CLS -/

/-- Settles O53: `encode .cls` is 0x00E0, and CLS replaces the framebuffer by the clear one and falls through. -/
theorem clearScreenResult : Obligations.ClearScreenResult :=
  ⟨fun w => decode_eq_instr_iff w .cls,
    fun s => ⟨_, rfl, Framebuffer.cell_clear, rfl, (changesOnly_with_fb s Framebuffer.clear).fallThrough⟩⟩

/-! ### A cell before and after a change -/

theorem Flipped.eq_not {before after : Bool} {P : Prop} (h : Flipped before after P) (hP : P) : after = !before := by
  cases before <;> simpa [Flipped, hP] using h

theorem Flipped.eq_self {before after : Bool} {P : Prop} (h : Flipped before after P) (hP : ¬ P) : after = before := by
  cases before <;> simpa [Flipped, hP] using h

/-- A cell that was 1 is 0 exactly when it has changed. -/
theorem Flipped.false_iff {before after : Bool} {P : Prop} (h : Flipped before after P) (hb : before = true) :
    after = false ↔ P := by
  by_cases hP : P
  · simp [h.eq_not hP, hb, hP]
  · simp [h.eq_self hP, hb, hP]

/-- Two equal changes undo each other. -/
theorem Flipped.twice {a b c : Bool} {P : Prop} (h : Flipped a b P) (h' : Flipped b c P) : c = a := by
  by_cases hP : P
  · rw [h'.eq_not hP, h.eq_not hP, Bool.not_not]
  · rw [h'.eq_self hP, h.eq_self hP]

/-! ### The cells of a sprite -/

/-- The cell of a pixel of the screen is one of the sprite's exactly when a set bit of the sprite falls on the pixel. -/
theorem spriteCells_iff_spriteLights (s : State) (cx cy : Byte) (n : Nat) {px py : Nat} (hx : px < 64) :
    SpriteCells cx cy s.mem s.i.toNat n (px + 64 * py) ↔ s.SpriteLights cx cy n px py := by
  have hcell (row col : Nat) : px + 64 * py = spriteCell cx cy row col ↔
      px = (cx.toNat + col) % 64 ∧ py = (cy.toNat + row) % 32 := by
    unfold spriteCell fbIndex
    omega
  simp only [SpriteCells, RowLights, State.SpriteLights, hcell]

theorem SpriteCells.lt {cx cy : Byte} {m : Memory} {base n j : Nat} (h : SpriteCells cx cy m base n j) : j < 2048 := by
  obtain ⟨row, -, col, -, -, rfl⟩ := h
  exact spriteCell_lt cx cy row col

theorem exists_rowLights_iff (cx cy : Byte) (row : Nat) (b : Byte) : (∃ j, RowLights cx cy row b 8 j) ↔ b ≠ 0 := by
  constructor
  · rintro ⟨_, col, -, hbit, -⟩ rfl
    simp at hbit
  · intro hne
    by_contra hnone
    refine hne (BitVec.eq_of_getLsbD_eq fun k hk => ?_)
    by_contra hbit
    refine hnone ⟨_, 7 - k, by omega, ?_, rfl⟩
    rw [show 7 - (7 - k) = k by omega]
    simpa using hbit

/-- A sprite falls on some cell exactly when it has a set bit. -/
theorem exists_spriteCells_iff (cx cy : Byte) (m : Memory) (base n : Nat) :
    (∃ j, SpriteCells cx cy m base n j) ↔ ∃ row < n, m.read (base + row) ≠ 0 := by
  calc (∃ j, SpriteCells cx cy m base n j)
      ↔ ∃ row < n, ∃ j, RowLights cx cy row (m.read (base + row)) 8 j := by
        constructor
        · rintro ⟨j, row, hrow, h⟩
          exact ⟨row, hrow, j, h⟩
        · rintro ⟨row, hrow, j, h⟩
          exact ⟨j, row, hrow, h⟩
    _ ↔ ∃ row < n, m.read (base + row) ≠ 0 := by simp only [exists_rowLights_iff]

/-! ### DRW -/

theorem collisionFlag_eq_one_iff (c : Bool) : collisionFlag c = 1 ↔ c = true := by
  cases c <;> decide

theorem collisionFlag_eq_zero_or_one (c : Bool) : collisionFlag c = 0 ∨ collisionFlag c = 1 := by
  cases c
  · exact .inl rfl
  · exact .inr rfl

/-- The drawing that `drw x y n` makes of the framebuffer of `s`. -/
def State.drawing (s : State) (x y : Reg) (n : Fin 16) : Drawing :=
  drawRows (s.getV x) (s.getV y) s.mem s.i.toNat n.val ⟨s.fb, false⟩

/-- The cells that `drw x y n` flips in `s`. -/
def State.DrawsOn (s : State) (x y : Reg) (n : Fin 16) (j : Nat) : Prop :=
  SpriteCells (s.getV x) (s.getV y) s.mem s.i.toNat n.val j

theorem State.drawing_flipped (s : State) (x y : Reg) (n : Fin 16) (j : Nat) :
    Flipped (s.fb.cell j) ((s.drawing x y n).fb.cell j) (s.DrawsOn x y n j) :=
  drawRows_cell _ _ _ _ ⟨s.fb, false⟩ j (by omega)

theorem State.drawing_collision (s : State) (x y : Reg) (n : Fin 16) :
    (s.drawing x y n).collision = true ↔ ∃ j, s.DrawsOn x y n j ∧ s.fb.cell j = true :=
  (drawRows_collision _ _ _ _ ⟨s.fb, false⟩ (by omega)).trans (or_iff_right Bool.false_ne_true)

/-- A state with the same coordinates, I and memory draws on the same cells. -/
theorem State.drawsOn_congr {s t : State} {x y : Reg} (hx : t.getV x = s.getV x) (hy : t.getV y = s.getV y) (hi : t.i = s.i)
    (hmem : ∀ a, t.mem.read a = s.mem.read a) (n : Fin 16) (j : Nat) : t.DrawsOn x y n j ↔ s.DrawsOn x y n j := by
  simp only [State.DrawsOn, SpriteCells, hx, hy, hi, hmem]

/-- DRW with n = 0 or the sprite in bounds takes over the drawing, then writes VF, and falls through. -/
theorem exec_drw_in (x y : Reg) {n : Fin 16} {s : State} (hin : n.val = 0 ∨ s.i.toNat + n.val - 1 ≤ 0xFFF) :
    exec (.drw x y n) s = .next (({ s with fb := (s.drawing x y n).fb } : State).setV Reg.vf
      (collisionFlag (s.drawing x y n).collision)).fallThrough :=
  if_pos ((blockInBounds_iff s.i n.val).mpr (by omega))

/-- DRW in terms of the cells it draws on: it flips exactly those, and VF says whether one of them was 1 (R196). -/
theorem exec_drw_result (x y : Reg) {n : Fin 16} {s : State} (hin : n.val = 0 ∨ s.i.toNat + n.val - 1 ≤ 0xFFF) :
    ∃ t, exec (.drw x y n) s = .next t ∧ (∀ j, Flipped (s.fb.cell j) (t.fb.cell j) (s.DrawsOn x y n j)) ∧
      (t.getV 15 = 1 ↔ ∃ j, s.DrawsOn x y n j ∧ s.fb.cell j = true) ∧ (t.getV 15 = 0 ∨ t.getV 15 = 1) ∧
      (∀ j, j ≠ 15 → t.getV j = s.getV j) ∧ t.pc = s.pc + 2 ∧ ChangesOnly [.fb, .regs, .pc] s t := by
  refine ⟨_, exec_drw_in x y hin, s.drawing_flipped x y n, ?_, ?_,
    fun j hj => (State.getV_setV ..).trans (if_neg hj), rfl,
    ((changesOnly_with_fb s _).trans (changesOnly_setV _ _ _)).fallThrough⟩
  all_goals rw [State.fallThrough_getV, State.getV_setV, if_pos rfl]
  · exact (collisionFlag_eq_one_iff _).trans (s.drawing_collision x y n)
  · exact collisionFlag_eq_zero_or_one _

/-- Settles O54: the cells drawn on are those under a set bit, and one of them that was 1 is 0 afterwards. -/
theorem drawSpriteResult : Obligations.DrawSpriteResult := by
  intro x y n s hin
  obtain ⟨t, ht, hflip, hvf, hrest⟩ := exec_drw_result x y hin
  refine ⟨t, ht, fun px hx py _ => ?_, hvf.trans ?_, hrest⟩
  · have hpixel := hflip (px + 64 * py)
    rwa [State.DrawsOn, spriteCells_iff_spriteLights _ _ _ _ hx] at hpixel
  · constructor
    · rintro ⟨j, hj, hon⟩
      have hlt : j < 2048 := SpriteCells.lt hj
      have hxy : j % 64 + 64 * (j / 64) = j := Nat.mod_add_div j 64
      refine ⟨j % 64, by omega, j / 64, by omega, ?_⟩
      rw [hxy]
      exact ⟨hon, ((hflip j).false_iff hon).mpr hj⟩
    · rintro ⟨px, -, py, -, hon, hoff⟩
      exact ⟨px + 64 * py, ((hflip _).false_iff hon).mp hoff, hon⟩

/-- Settles O55: the first draw leaves Vx, Vy, I and memory, so the second flips the same cells, which on a clear framebuffer
are then exactly the cells that are 1. -/
theorem drawingTwiceRestoresTheScreen : Obligations.DrawingTwiceRestoresTheScreen := by
  intro x y n s t u hx hy hin ht hu
  obtain ⟨_, hdraw, hflip, -, -, hregs, -, hframe⟩ := exec_drw_result x y hin
  obtain rfl := Host.Outcome.next.inj (ht.symm.trans hdraw)
  have hi : t.i = s.i := hframe .index (by decide)
  have hsame := State.drawsOn_congr (hregs x hx) (hregs y hy) hi (hframe .mem (by decide)) n
  obtain ⟨_, hagain, hflip', hvf, -⟩ := exec_drw_result x y (n := n) (s := t) (by rwa [hi])
  obtain rfl := Host.Outcome.next.inj (hu.symm.trans hagain)
  simp only [hsame] at hflip' hvf
  refine ⟨fun k _ => (hflip k).twice (hflip' k), fun hclear => ?_⟩
  have hlit (j : Nat) (hj : s.DrawsOn x y n j) : t.fb.cell j = true := by
    rw [(hflip j).eq_not hj, hclear j (SpriteCells.lt hj), Bool.not_false]
  calc u.getV 15 = 1
      ↔ ∃ j, s.DrawsOn x y n j ∧ t.fb.cell j = true := hvf
    _ ↔ ∃ j, s.DrawsOn x y n j := exists_congr fun j => and_iff_left_of_imp (hlit j)
    _ ↔ ∃ row < n.val, s.mem.read (s.i.toNat + row) ≠ 0 := exists_spriteCells_iff _ _ _ _ _

end Sys2Proof.Machine

/-! SUPPORT. The keypad (47_keypad.md R200 to R203): which key the search finds, what the three instructions that read the keypad
do when they complete, and that no other instruction depends on it. -/

namespace Sys2Proof.Machine

/-! ### The lowest key -/

theorem lowestKey_eq_none_iff {key : BitVec 16} : lowestKey key = none ↔ key = 0 := by
  constructor
  · exact lowestKey_none
  · rintro rfl
    rfl

/-- A key that is down, with none below it down, is the one the search finds. -/
theorem lowestKey_eq_some {key : BitVec 16} {k : Nat} (hdown : key.getLsbD k = true)
    (hlow : ∀ j < k, key.getLsbD j = false) : lowestKey key = some k := by
  cases hfound : lowestKey key with
  | none =>
    rw [lowestKey_eq_none_iff.mp hfound] at hdown
    simp at hdown
  | some k' =>
    obtain ⟨hdown', -, -, hlow'⟩ := lowestKeyFrom_some hfound
    rcases Nat.lt_trichotomy k' k with hlt | rfl | hgt
    · exact absurd hdown' (by simp [hlow k' hlt])
    · rfl
    · exact absurd hdown (by simp [hlow' k (Nat.zero_le k) hgt])

/-! ### SKP, SKNP, LD Vx, K -/

theorem exec_skp_of_le {x : Reg} {s : State} (h : (s.getV x).toNat ≤ 0xF) :
    exec (.skp x) s = .next (s.skipIf (s.key.getLsbD (s.getV x).toNat)) :=
  if_neg (Nat.not_lt.mpr h)

theorem exec_sknp_of_le {x : Reg} {s : State} (h : (s.getV x).toNat ≤ 0xF) :
    exec (.sknp x) s = .next (s.skipIf (!s.key.getLsbD (s.getV x).toNat)) :=
  if_neg (Nat.not_lt.mpr h)

theorem exec_ldVxK_of_none (x : Reg) {s : State} (h : lowestKey s.key = none) : exec (.ldVxK x) s = .next s :=
  congrArg (fun key => Host.Outcome.next (s.keyWait x key)) h

theorem exec_ldVxK_of_some (x : Reg) {s : State} {k : Nat} (h : lowestKey s.key = some k) :
    exec (.ldVxK x) s = .next (s.setV x (BitVec.ofNat 8 k)).fallThrough :=
  congrArg (fun key => Host.Outcome.next (s.keyWait x key)) h

/-- Settles O57: SKNP skips on the negated level, so the two targets change places. -/
theorem skipOnKey : Obligations.SkipOnKey := by
  intro x s h
  constructor
  · exact exec_result_of_skipIf (exec_skp_of_le h) Iff.rfl
  · have hsknp := exec_result_of_skipIf (c := ¬ s.key.getLsbD (s.getV x).toNat = true) (exec_sknp_of_le h) (by simp)
    simpa only [ite_not] using hsknp

/-- Settles O59: the search finds no key exactly when none is down, and else the lowest, whose number fits a byte. -/
theorem waitForKeyResult : Obligations.WaitForKeyResult := by
  intro x s
  refine ⟨fun hnone => exec_ldVxK_of_none x (lowestKey_eq_none_iff.mpr hnone), fun k hk hdown hlow => ?_⟩
  obtain ⟨t, ht, hregs, hrest⟩ := exec_result_of_setV (exec_ldVxK_of_some x (lowestKey_eq_some hdown hlow))
  refine ⟨t, ht, ?_, fun j hj => (hregs j).trans (if_neg hj), hrest⟩
  rw [hregs, if_pos rfl, BitVec.toNat_ofNat]
  exact Nat.mod_eq_of_lt (by omega)

/-! ### Every other instruction -/

/-- Settles O21: the keypad stands in no value an instruction other than SKP, SKNP and LD Vx, K computes, and in no condition on
which it takes a fault. -/
theorem keypadIsReadOnlyByKeyInstructions : Obligations.KeypadIsReadOnlyByKeyInstructions := by
  intro i s p hne
  cases i with
  | skp x | sknp x | ldVxK x =>
    obtain ⟨hskp, hsknp, hwait⟩ := hne x
    contradiction
  | ret | call | drw | ldB | storeRegs | loadRegs => exact ite_eq_mapNext_ite rfl rfl
  | _ => rfl

end Sys2Proof.Machine

/-! SUPPORT. The timers (48_timers.md R210 to R213): what the three timer instructions do, and the tick of the step that runs one
of them. -/

namespace Sys2Proof.Machine

/-- Settles O60: Fx07 writes one register, Fx15 and Fx18 one timer. -/
theorem timerInstructionResults : Obligations.TimerInstructionResults := fun _ s =>
  ⟨exec_result_of_setV rfl, ⟨_, rfl, rfl, rfl, (changesOnly_with_dt s _).fallThrough⟩,
    ⟨_, rfl, rfl, rfl, (changesOnly_with_st s _).fallThrough⟩⟩

/-- A step whose instruction takes no fault ticks the timers as that instruction leaves them (R213). -/
theorem State.Runs.step_tick {s t : State} {i : Instr} (hr : s.Runs i) (h : exec i s.beginStep = .next t)
    (hok : t.result = none) : step s = .next t.tick.takeKey :=
  (hr.step_of_exec h).trans (congrArg Host.Outcome.next (t.finishStep_committed (t.aborted_none hok)))

/-- Settles O13: Fx07 has read DT, and Fx15 or Fx18 has written its timer, when the tick takes 1 from each nonzero timer. -/
theorem timerInstructionsMeetTheTick : Obligations.TimerInstructionsMeetTheTick := by
  refine fun s x => ⟨fun hr => ?_, fun hr => ?_, fun hr => ?_⟩
  · exact ⟨_, hr.step_tick rfl rfl, (s.getV_setV x x s.dt).trans (if_pos rfl), tickTimer_toNat s.dt⟩
  · exact ⟨_, hr.step_tick rfl rfl, tickTimer_toNat (s.getV x), tickTimer_toNat s.st⟩
  · exact ⟨_, hr.step_tick rfl rfl, tickTimer_toNat (s.getV x), tickTimer_toNat s.dt⟩

end Sys2Proof.Machine

/-! SUPPORT. The faults (60_exceptions.md R220 to R226): the condition of each, said once as the inversion of `Instr.fault`; the
report of a step; and what the result ports show. -/

namespace Sys2Proof.Machine

/-! ### The fault of an instruction and its condition -/

/-- The condition under which an instruction takes a fault, with the fault's information (R222 to R225). -/
inductive FaultCondition (s : State) : Instr → Fault → Prop
  | stackOverflow {nnn : BitVec 12} : s.sp = 15 → FaultCondition s (.call nnn) .stackOverflow
  | stackUnderflow : s.sp = 0 → FaultCondition s .ret .stackUnderflow
  | block {i : Instr} : 0 < i.blockLength → 0x1000 < s.i.toNat + i.blockLength →
      FaultCondition s i (.memoryOutOfBounds (blockFaultAddr s.i))
  | skp {x : Reg} : 0xF < (s.getV x).toNat → FaultCondition s (.skp x) (.keyIndexOutOfRange (s.getV x))
  | sknp {x : Reg} : 0xF < (s.getV x).toNat → FaultCondition s (.sknp x) (.keyIndexOutOfRange (s.getV x))

theorem FaultCondition.fault_eq {s : State} {i : Instr} {f : Fault} (h : FaultCondition s i f) : i.fault s = some f := by
  cases h with
  | stackOverflow hsp => exact if_pos (congrArg BitVec.toNat hsp)
  | stackUnderflow hsp => exact if_pos hsp
  | block hpos hout => exact fault_of_block_out hpos (by omega)
  | skp hkey | sknp hkey => exact if_pos hkey

/-- Every fault an instruction takes has its condition. -/
theorem faultCondition_of_fault {s : State} {i : Instr} {f : Fault} (h : i.fault s = some f) : FaultCondition s i f := by
  cases i with
  | call nnn =>
    obtain ⟨hsp, ⟨⟩⟩ := Option.ite_none_right_eq_some.mp h
    exact .stackOverflow (BitVec.eq_of_toNat_eq hsp)
  | ret =>
    obtain ⟨hsp, ⟨⟩⟩ := Option.ite_none_right_eq_some.mp h
    exact .stackUnderflow hsp
  | skp x =>
    obtain ⟨hkey, ⟨⟩⟩ := Option.ite_none_right_eq_some.mp h
    exact .skp hkey
  | sknp x =>
    obtain ⟨hkey, ⟨⟩⟩ := Option.ite_none_right_eq_some.mp h
    exact .sknp hkey
  | drw | ldB | storeRegs | loadRegs =>
    obtain ⟨hout, ⟨⟩⟩ := Option.ite_none_left_eq_some.mp h
    rw [blockInBounds_iff] at hout
    exact .block (by omega) (by omega)
  | _ => cases h

/-- The meaning of an instruction in a state that meets the condition of a fault: the report, and no other change (R228). -/
theorem FaultCondition.exec {s : State} {i : Instr} {f : Fault} (h : FaultCondition s i f) :
    exec i s = .next { s with result := some f } :=
  (exec_of_fault h.fault_eq).2

/-- Settles O35: each stack fault by its condition on SP. -/
theorem stackFaults : Obligations.StackFaults := fun _ =>
  ⟨fun hsp _ => (FaultCondition.stackOverflow hsp).exec, fun hsp => (FaultCondition.stackUnderflow hsp).exec⟩

/-- Settles O58: the two key instructions take the fault on one condition. -/
theorem keyIndexFaults : Obligations.KeyIndexFaults := fun _ _ hkey =>
  ⟨(FaultCondition.skp hkey).exec, (FaultCondition.sknp hkey).exec⟩

/-! ### The report of a step -/

/-- A step reports an aborting fault exactly when it takes it (40_step_cycle.md R127). -/
theorem result_eq_some_iff_abortsWith {s t : State} {f : Fault} (h : step s = .next t) (hab : f.aborts = true) :
    t.result = some f ↔ s.AbortsWith f := by
  refine ⟨fun hres => abortsWith_of_step h hres hab, fun hf => ?_⟩
  rw [Host.Outcome.next.inj (h.symm.trans hf.step)]

theorem result_eq_unhandledOpcode_iff {s t : State} (h : step s = .next t) (w : Opcode) :
    t.result = some (.unhandledOpcode w) ↔ s.pc.toNat ≤ 0xFFE ∧ w = s.wordAtPc ∧ decode s.wordAtPc = .unknown := by
  constructor
  · intro hres
    rcases step_cases s with ⟨-, hs⟩ | ⟨hpc, hd, hs⟩ | ⟨i, u, hr, hu, hs⟩ <;>
      obtain rfl := Host.Outcome.next.inj (hs.symm.trans h)
    · cases hres
    · cases hres
      exact ⟨hpc, rfl, hd⟩
    · rw [State.finishStep_result] at hres
      cases faultCondition_of_fault (fault_of_exec hu hres (by simp [hres]))
  · rintro ⟨hpc, rfl, hd⟩
    obtain ⟨_, hs, -, -, -, hres, -⟩ := unknownOpcodeStep s hpc hd
    obtain rfl := Host.Outcome.next.inj (hs.symm.trans h)
    exact hres

theorem abortsWith_stackOverflow_iff {s : State} :
    s.AbortsWith .stackOverflow ↔ s.sp = 15 ∧ ∃ nnn, s.Runs (.call nnn) := by
  constructor
  · intro h
    cases h with
    | exec hr hf =>
      cases faultCondition_of_fault hf with
      | stackOverflow hsp => exact ⟨hsp, _, hr⟩
  · rintro ⟨hsp, nnn, hr⟩
    exact .exec hr (FaultCondition.stackOverflow hsp).fault_eq

theorem abortsWith_stackUnderflow_iff {s : State} : s.AbortsWith .stackUnderflow ↔ s.sp = 0 ∧ s.Runs .ret := by
  constructor
  · intro h
    cases h with
    | exec hr hf =>
      cases faultCondition_of_fault hf with
      | stackUnderflow hsp => exact ⟨hsp, hr⟩
  · rintro ⟨hsp, hr⟩
    exact .exec hr (FaultCondition.stackUnderflow hsp).fault_eq

theorem abortsWith_memoryOutOfBounds_iff {s : State} {a : Addr} :
    s.AbortsWith (.memoryOutOfBounds a) ↔
      (0xFFE < s.pc.toNat ∧ a = if s.pc.toNat = 0xFFF then 0x1000 else s.pc) ∨
      ∃ i, s.Runs i ∧ 0 < i.blockLength ∧ 0x1000 < s.i.toNat + i.blockLength ∧ a = blockFaultAddr s.i := by
  constructor
  · intro h
    cases h with
    | fetch hpc => exact .inl ⟨hpc, rfl⟩
    | exec hr hf =>
      cases faultCondition_of_fault hf with
      | block hpos hout => exact .inr ⟨_, hr, hpos, hout, rfl⟩
  · rintro (⟨hpc, rfl⟩ | ⟨i, hr, hpos, hout, rfl⟩)
    · exact .fetch hpc
    · exact .exec hr (FaultCondition.block hpos hout).fault_eq

theorem abortsWith_keyIndexOutOfRange_iff {s : State} {k : Byte} :
    s.AbortsWith (.keyIndexOutOfRange k) ↔ ∃ x, (s.Runs (.skp x) ∨ s.Runs (.sknp x)) ∧ k = s.getV x ∧ 0xF < k.toNat := by
  constructor
  · intro h
    cases h with
    | exec hr hf =>
      cases faultCondition_of_fault hf with
      | skp hkey => exact ⟨_, .inl hr, rfl, hkey⟩
      | sknp hkey => exact ⟨_, .inr hr, rfl, hkey⟩
  · rintro ⟨x, hr | hr, rfl, hkey⟩
    · exact .exec hr (FaultCondition.skp hkey).fault_eq
    · exact .exec hr (FaultCondition.sknp hkey).fault_eq

/-- Settles O11: the Unknown step makes the one reporting fault; each aborting fault is reported exactly when the step takes it,
and then its fetch or the instruction it runs meets the fault's condition. -/
theorem faultsAreReportedExactlyWhen : Obligations.FaultsAreReportedExactlyWhen := fun _ _ h =>
  ⟨result_eq_unhandledOpcode_iff h,
    (result_eq_some_iff_abortsWith h rfl).trans abortsWith_stackOverflow_iff,
    (result_eq_some_iff_abortsWith h rfl).trans abortsWith_stackUnderflow_iff,
    fun _ => (result_eq_some_iff_abortsWith h rfl).trans abortsWith_memoryOutOfBounds_iff,
    fun _ => (result_eq_some_iff_abortsWith h rfl).trans abortsWith_keyIndexOutOfRange_iff⟩

/-! ### The result ports -/

theorem State.resultPorts_of_none {s : State} (h : s.result = none) : s.resultCode = 0 ∧ s.resultInfo = 0 := by
  simp [State.resultCode, State.resultInfo, h]

theorem State.resultPorts_of_some {s : State} {f : Fault} (h : s.result = some f) :
    s.resultCode = f.code ∧ s.resultInfo = f.info := by
  simp [State.resultCode, State.resultInfo, h]

/-- Settles O15: the information of a key number is the number widened to 16 bits. -/
theorem resultPortsShowCodeAndInformation : Obligations.ResultPortsShowCodeAndInformation := by
  refine ⟨rfl, rfl, fun s => ⟨State.resultPorts_of_none, fun _ => State.resultPorts_of_some, State.resultPorts_of_some,
    State.resultPorts_of_some, fun _ => State.resultPorts_of_some, fun k h => ?_⟩⟩
  obtain ⟨hcode, hinfo⟩ := State.resultPorts_of_some h
  exact ⟨hcode, (congrArg BitVec.toNat hinfo).trans (addrOfByte_toNat k)⟩

end Sys2Proof.Machine

/-! SUPPORT. The reset port and the load port (70_reset_and_hazards.md R250, R252). -/

namespace Sys2Proof.Machine

/-- Settles O24: only the two input streams differ from the state after reset. -/
theorem resetPortResetsEverything : Obligations.ResetPortResetsEverything := fun s =>
  ⟨(changesOnly_with_keyIn State.reset s.keyIn).trans (changesOnly_with_rndIn _ s.rndIn), rfl, rfl⟩

/-- The loader's bound: 3584 bytes lie between 0x200 and the end of memory (R252). -/
theorem image_wellFormed_iff (image : List Byte) : Image.wellFormed image = true ↔ image.length ≤ 3584 :=
  decide_eq_true_iff

theorem State.loadImage_of_fits {s : State} {image : List Byte} (h : image.length ≤ 3584) :
    s.loadImage image = some { s with mem := s.mem.writeBytes Config.progBase image } :=
  if_pos ((image_wellFormed_iff image).mpr h)

theorem State.loadImage_of_too_long {s : State} {image : List Byte} (h : 3584 < image.length) : s.loadImage image = none :=
  if_neg fun hfits => absurd ((image_wellFormed_iff image).mp hfits) (Nat.not_le.mpr h)

/-- Settles O25: the loader is one block write at 0x200, which ends inside memory. -/
theorem loaderPlacesTheImage : Obligations.LoaderPlacesTheImage := by
  refine fun s image hwf => ⟨State.loadImage_of_too_long, fun hfits => ?_⟩
  refine ⟨_, State.loadImage_of_fits hfits, changesOnly_with_mem s _, fun a => ?_⟩
  exact Memory.read_writeBytes a image hwf (by simp only [Config.memSize, Config.progBase]; omega)

end Sys2Proof.Machine
